-- ==== Sys2Proof/Word.lean ====
section
/-! DEFINITION. The machine's word and its register index. -/

namespace Sys2Proof

/-- `XLEN` = 8: a register, `pc`, `fl`, a memory cell, an operand byte and an opcode are all 8 bits (R4), and so is a
memory address (`ADDRW` = 8). Arithmetic on it wraps modulo 256; every value is unsigned (R6). -/
abbrev Byte := BitVec 8

/-- The number of a general register, 0 to 7 (`NREG` = 8, R4, R10). -/
abbrev RegIdx := Fin 8

end Sys2Proof
end

