-- ==== Sys2Proof/Config.lean ====
section
/-! DEFINITION. What is fixed configuration of the block and not state (R4, R24): the parameters and the closed set of
registered opcodes. The byte of each opcode (`OPC`, R57) is `Sys2Proof.opc` in Decode.lean. The spec leaves no value
free, so no constant here is opaque. -/

namespace Sys2Proof

/-- The twelve registered opcodes, in the order of the source's handler table (R57): "a fixed mapping from an
enumerated opcode variant to a function" (R24). -/
inductive Opcode where
  | hlt | ldi | prn | mul | add | push | pop | cmp | jmp | jeq | jne | or
  deriving DecidableEq, Repr

/-- All registered opcodes (R57). -/
def Opcode.all : List Opcode :=
  [.hlt, .ldi, .prn, .mul, .add, .push, .pop, .cmp, .jmp, .jeq, .jne, .or]

/-- `MEMSIZE`: the number of memory cells (R4). -/
def Config.memSize : Nat := 256

/-- `SP`: the index of the stack-pointer register (R4, R11). -/
abbrev Config.sp : RegIdx := 7

/-- `SP_RESET` (R4, R25). -/
def Config.spReset : Byte := 0xF4

/-- `PC_RESET` (R4, R25). UNVERIFIED: the spec's decision D3, log 6. -/
def Config.pcReset : Byte := 0x00

/-- `FL_RESET` (R4, R25). UNVERIFIED: the spec's decision D4, log 6. -/
def Config.flReset : Byte := 0x00

/-- The reset content of every memory cell (R25). -/
def Config.memReset : Byte := 0x00

end Sys2Proof
end

