-- ==== Sys2Proof/Syntax.lean ====
section
/-! DEFINITION. The instructions as syntax: one constructor per row of spec/opcode_table.json. An instruction carries its
operand BYTES as fetched, because "each handler receives the two raw operand bytes (unused ones are ignored)" (R53, R84);
the register a byte selects is `Machine.ridx` (R54). `opa` is the first operand byte, `opb` the second as a register
operand, `imm` the second as an immediate (R52). -/

namespace Sys2Proof

inductive Instr where
  /-- HLT, format F0 (R100). -/
  | hlt
  /-- LDI a, imm, format F2RI (R106). -/
  | ldi (opa imm : Byte)
  /-- PRN a, format F1R (R101). -/
  | prn (opa : Byte)
  /-- MUL a, b, format F2RR (R116). -/
  | mul (opa opb : Byte)
  /-- ADD a, b, format F2RR (R117). -/
  | add (opa opb : Byte)
  /-- PUSH a, format F1R (R107). -/
  | push (opa : Byte)
  /-- POP a, format F1R (R109). -/
  | pop (opa : Byte)
  /-- CMP a, b, format F2RR (R118). -/
  | cmp (opa opb : Byte)
  /-- JMP a, format F1R (R126). -/
  | jmp (opa : Byte)
  /-- JEQ a, format F1R (R127). -/
  | jeq (opa : Byte)
  /-- JNE a, format F1R (R128). -/
  | jne (opa : Byte)
  /-- OR a, b, format F2RR (R119). -/
  | or (opa opb : Byte)
  deriving DecidableEq, Repr

/-- The registered opcode of an instruction (R57). -/
def Instr.op : Instr → Opcode
  | .hlt => .hlt
  | .ldi _ _ => .ldi
  | .prn _ => .prn
  | .mul _ _ => .mul
  | .add _ _ => .add
  | .push _ => .push
  | .pop _ => .pop
  | .cmp _ _ => .cmp
  | .jmp _ => .jmp
  | .jeq _ => .jeq
  | .jne _ => .jne
  | .or _ _ => .or

end Sys2Proof
end

