-- ==== Sys2Proof/WellFormed.lean ====
section
/-! DEFINITION. Well-formed instructions: those whose register operand bytes are in 0 to 7, "the only ones the source
defines" (R54, R163 item 5). On them the model does not depend on the masking of decision D8. Every other operand byte
still decodes and runs, masked as R54 says (R62: "Operand bytes have no illegal values"); see log 4 and log 15. -/

namespace Sys2Proof

/-- The operand byte is a register number 0 to 7. -/
def regByteOk (b : Byte) : Bool := b.toNat < 8

/-- Every register operand byte is a register number; an immediate may be any byte (R55). -/
def Instr.wellFormed : Instr → Bool
  | .hlt => true
  | .ldi opa _ => regByteOk opa
  | .prn opa => regByteOk opa
  | .mul opa opb => regByteOk opa && regByteOk opb
  | .add opa opb => regByteOk opa && regByteOk opb
  | .push opa => regByteOk opa
  | .pop opa => regByteOk opa
  | .cmp opa opb => regByteOk opa && regByteOk opb
  | .jmp opa => regByteOk opa
  | .jeq opa => regByteOk opa
  | .jne opa => regByteOk opa
  | .or opa opb => regByteOk opa && regByteOk opb

end Sys2Proof
end

