-- ==== Sys2Proof/Decode.lean ====
section
/-! DEFINITION. The opcode map, the decoder (total, refusing an unregistered opcode by name) and, after it, the encoder.
A program's bytes lie in ascending address order, the opcode first (R35, R50). -/

namespace Sys2Proof

/-- `OPC`, the byte of each registered opcode (R57), the one place where the values stand. PRESUMED: the values are "from
general knowledge, not in source" (decision D1, log 1); R56 says which bits the source fixes. -/
def opc : Opcode → Byte
  | .hlt  => 0b00000001
  | .ldi  => 0b10000010
  | .prn  => 0b01000111
  | .mul  => 0b10100010
  | .add  => 0b10100000
  | .push => 0b01000101
  | .pop  => 0b01000110
  | .cmp  => 0b10100111
  | .jmp  => 0b01010100
  | .jeq  => 0b01010101
  | .jne  => 0b01010110
  | .or   => 0b10101010

/-- The operand-count field `cnt` of an opcode byte, bits 7 to 6 (R51). -/
def operandCount (ir : Byte) : BitVec 2 := ir.extractLsb' 6 2

/-- The sets-PC field of an opcode byte, bit 4 (R51). -/
def setsPc (ir : Byte) : Bool := ir.getLsbD 4

/-- The length in bytes that an opcode byte announces: 1 plus the operand count; undefined where the count is 11
(R50, R61, decision D12). -/
def instrLength (ir : Byte) : Option Nat :=
  if operandCount ir = 0b11 then none else some (1 + (operandCount ir).toNat)

/-- The registered opcode that a byte is, compared on all 8 bits; none for the 244 others (R58, R60). -/
def lookupOpcode (ir : Byte) : Option Opcode := Opcode.all.find? (fun o => opc o == ir)

/-- Why the decoder refuses. There is one reason: no handler is registered for the byte (R60, R83). -/
inductive DecodeError where
  | unknownOpcode (opcode : Byte)
  deriving DecidableEq, Repr

/-- The decoder (R58, R83, R84): the opcode byte alone selects the instruction; the two candidate operand bytes are handed
over raw and the unused ones ignored (R53). -/
def decode (ir opa opb : Byte) : Except DecodeError Instr :=
  match lookupOpcode ir with
  | none => .error (.unknownOpcode ir)
  | some .hlt => .ok .hlt
  | some .ldi => .ok (.ldi opa opb)
  | some .prn => .ok (.prn opa)
  | some .mul => .ok (.mul opa opb)
  | some .add => .ok (.add opa opb)
  | some .push => .ok (.push opa)
  | some .pop => .ok (.pop opa)
  | some .cmp => .ok (.cmp opa opb)
  | some .jmp => .ok (.jmp opa)
  | some .jeq => .ok (.jeq opa)
  | some .jne => .ok (.jne opa)
  | some .or => .ok (.or opa opb)

/-- The decoder on a byte sequence: its first three bytes, a missing one read as zero. -/
def decodeBytes (bs : List Byte) : Except DecodeError Instr :=
  decode (bs.getD 0 0) (bs.getD 1 0) (bs.getD 2 0)

/-- The bytes of an instruction in ascending address order (R52, R63). -/
def encode : Instr → List Byte
  | .hlt => [opc .hlt]
  | .ldi opa imm => [opc .ldi, opa, imm]
  | .prn opa => [opc .prn, opa]
  | .mul opa opb => [opc .mul, opa, opb]
  | .add opa opb => [opc .add, opa, opb]
  | .push opa => [opc .push, opa]
  | .pop opa => [opc .pop, opa]
  | .cmp opa opb => [opc .cmp, opa, opb]
  | .jmp opa => [opc .jmp, opa]
  | .jeq opa => [opc .jeq, opa]
  | .jne opa => [opc .jne, opa]
  | .or opa opb => [opc .or, opa, opb]

/-- Byte `k` (0 at the lowest address) of an instruction whose `nbits` bits are numbered as spec/opcode_table.json numbers
them: bit 0 the least significant of the first byte. Every bit from `nbits` up is 0. -/
def tableByte (nbits w k : Nat) : Byte := BitVec.ofNat 8 ((w % 2 ^ nbits) / 256 ^ k)

/-- What the decoder reads from a word of spec/opcode_table.json. -/
def decodeTableWord (nbits w : Nat) : Option Instr :=
  match decode (tableByte nbits w 0) (tableByte nbits w 1) (tableByte nbits w 2) with
  | .ok i => some i
  | .error _ => none

end Sys2Proof
end

