-- ==== Sys2Proof/Machine/State.lean ====
section
/-! DEFINITION. The state of the machine as plain data, all of it (10_state.md), its value after reset (R25, R160), and
the names under which a step or a host operation can stop. -/

namespace Sys2Proof.Machine

/-- R18. The source's `running` is true exactly at `running`. -/
inductive Status where
  | running
  | halted
  | faulted
  deriving DecidableEq, Repr

/-- The causes of a fatal condition (R140): symbolic names, no codes (decision D18). -/
inductive Cause where
  /-- The byte fetched at `pc` is no registered opcode (R141). -/
  | unknownOpcode
  /-- The ALU selector is outside its set (R76). No program can raise it: the selector is the closed `AluOp`
  (decision D21, log 9). -/
  | unsupportedOperation
  deriving DecidableEq, Repr

/-- The fault record (R19, R142): the cause, `pc` at the start of the faulting step, the byte fetched there. -/
structure FaultRecord where
  cause  : Cause
  addr   : Byte
  opcode : Byte
  deriving DecidableEq, Repr

/-- One element of the output stream (R21): the index of the register read, and its value. -/
structure OutputPair where
  index : RegIdx
  value : Byte
  deriving DecidableEq, Repr

/-- The 256 cells (R22, R30) as the list of the cells that differ from their reset content, in rising address order
(`Memory.wf`), so that equal memories are equal data. -/
abbrev Memory := List Host.Cell

/-- What a cell that the list does not name holds: the reset content 0x00 (R25). -/
def Memory.unlisted : Byte := Config.memReset

/-- The canonical form: addresses strictly rising and inside the 256 cells, no entry equal to what an unlisted cell
holds. -/
abbrev Memory.wf (m : Memory) : Prop :=
  m.Pairwise (fun c d => c.1 < d.1) ∧ ∀ c ∈ m, c.1 < Config.memSize ∧ c.2 ≠ Memory.unlisted

/-- Everything the spec gives the machine. -/
structure State where
  /-- The general registers R0 to R7 (R10, R11). -/
  regs   : Vector Byte 8
  /-- The program counter (R13). -/
  pc     : Byte
  /-- The flags register: bit 0 Equal, bit 1 GreaterThan, bit 2 LessThan (R15). -/
  fl     : Byte
  /-- Running, Halted or Faulted (R18). -/
  status : Status
  /-- The fault record, none while it is empty (R19). -/
  fault  : Option FaultRecord
  /-- Memory (R22). -/
  mem    : Memory
  /-- The output stream, oldest pair first (R21). -/
  out    : List OutputPair
  deriving DecidableEq, Repr

/-- The state right after reset (R25, R160). -/
def State.reset : State where
  regs   := #v[0, 0, 0, 0, 0, 0, 0, Config.spReset]
  pc     := Config.pcReset
  fl     := Config.flReset
  status := .running
  fault  := none
  mem    := []
  out    := []

/-- Why a step answers no next state. Both say that no step is defined (R80: "defined only when `status = Running`",
R91: "no further step happens and no state changes until `reset`"). The fatal condition UnknownOpcode is not among them:
its entry is a next state (R142). -/
inductive Fault where
  /-- Raised by `step` alone, when the status is Halted. Safe: the model stops where the machine has stopped (log 8). -/
  | halted
  /-- Raised by `step` alone, when the status is Faulted. Safe: the model stops where the machine has stopped (log 8). -/
  | faulted
  deriving DecidableEq, Repr

/-- Why the model gives something no meaning. -/
inductive Refusal where
  /-- An arm of `exec` without a meaning: none is left. Safe. -/
  | notModelled (mnemonic : String)
  /-- Raised by `load` alone, for an image of more than 256 bytes (R45: "`load` is not defined for it"). Safe. -/
  | imageTooLong
  deriving DecidableEq, Repr

/-- The answer of a meaning, of a step and of a host operation. -/
abbrev Result := Host.Outcome State Fault Refusal

end Sys2Proof.Machine
end

