-- ==== Sys2Proof/Machine/Ops.lean ====
section
/-! DEFINITION. The named operations on registers, memory, output and `pc` (R7), the fetch unit (R81), the PC-update logic
(R86) and the entry into a fatal condition (R142). -/

namespace Sys2Proof.Machine

/-- `x[r]`: read of a general register (R7). No register is hard-wired (R10). -/
def State.reg (s : State) (r : RegIdx) : Byte := s.regs[r]

/-- `x[r] <- v` (R7). -/
def State.setReg (s : State) (r : RegIdx) (v : Byte) : State := { s with regs := s.regs.set r v }

/-- `pc <- v` (R7). -/
def State.setPc (s : State) (v : Byte) : State := { s with pc := v }

/-- `fl <- v` (R7). -/
def State.setFl (s : State) (v : Byte) : State := { s with fl := v }

/-- `status <- v` (R7). -/
def State.setStatus (s : State) (v : Status) : State := { s with status := v }

/-- `Output(r, v)`: appends a pair to the output stream (R7, R21). -/
def State.output (s : State) (r : RegIdx) (v : Byte) : State := { s with out := s.out ++ [⟨r, v⟩] }

/-- The byte in the cell with number `k`. -/
def Memory.read : Memory → Nat → Byte
  | [], _ => Memory.unlisted
  | c :: m, k => if c.1 = k then c.2 else Memory.read m k

/-- Put a cell before the first one with a greater address. -/
def Memory.insert (c : Host.Cell) : Memory → Memory
  | [] => [c]
  | d :: m => if c.1 < d.1 then c :: d :: m else d :: Memory.insert c m

/-- Replace the content of cell `k` by `v`, keeping the canonical form: the old entry goes, and the new one is listed
unless it is what an unlisted cell holds. -/
def Memory.write (m : Memory) (k : Nat) (v : Byte) : Memory :=
  let rest := m.filter (fun c => c.1 ≠ k)
  if v = Memory.unlisted then rest else Memory.insert (k, v) rest

/-- `MemRead(addr, 1)` (R7, R32). Every 8-bit address is a cell, so no access can fault (R43). -/
def State.memRead (s : State) (addr : Byte) : Byte := Memory.read s.mem addr.toNat

/-- `MemWrite(addr, 1, v)` (R7, R33). -/
def State.memWrite (s : State) (addr v : Byte) : State := { s with mem := Memory.write s.mem addr.toNat v }

/-- The three bytes a step fetches (R23, R81). -/
structure Fetched where
  ir  : Byte
  opa : Byte
  opb : Byte
  deriving DecidableEq, Repr

/-- The fetch unit: three reads in every step, whatever the instruction's length, their addresses modulo 256
(R34, R81). UNVERIFIED: the wrap is the spec's decision D5 (R37, log 2). -/
def fetch (s : State) : Fetched where
  ir  := s.memRead s.pc
  opa := s.memRead (s.pc + 1)
  opb := s.memRead (s.pc + 2)

/-- The PC-update logic, run after the handler of the instruction with opcode `o` fetched at `pc0` (R86): the test is on
bit 4 of the opcode byte, not on whether the handler changed `pc`. UNVERIFIED: the wrap is the spec's decision D6
(R14, log 2). -/
def pcUpdate (o : Opcode) (pc0 : Byte) (s : State) : State :=
  if setsPc (opc o) then s else s.setPc (pc0 + 1 + (operandCount (opc o)).setWidth 8)

/-- Entry into a fatal condition, `raise <Fault>(info)`: "does exactly this and nothing else" (R142, decision D10, log 7).
There is no return from one: "the only way forward is `reset`" (R145), which is `hostReset`. -/
def raise (cause : Cause) (pc0 ir : Byte) (s : State) : State :=
  { s with status := .faulted, fault := some ⟨cause, pc0, ir⟩ }

/-- The step whose opcode byte has no handler (R83, R141). -/
def unknownOpcodeStep (f : Fetched) (s : State) : Result := .next (raise .unknownOpcode s.pc f.ir s)

/-- Why no step is defined in this status, if none is (R80, R91, log 8). -/
def noStep : Status → Option Fault
  | .running => none
  | .halted => some .halted
  | .faulted => some .faulted

/-- The host's `reset`: the only way out of Halted and Faulted; it keeps nothing of the state before (R145, R160). -/
def hostReset (_ : State) : State := State.reset

end Sys2Proof.Machine
end

