-- ==== Sys2Proof/Machine/Flags.lean ====
section
/-! DEFINITION. The flags register (R15) and the one flag computation of the machine, CMP's (R75). -/

namespace Sys2Proof.Machine

/-- `fl` with every flag clear. -/
def flagsClear : Byte := 0x00

/-- `fl` with E alone, bit 0 (R15). -/
def flagsEqual : Byte := 0x01

/-- `fl` with G alone, bit 1 (R15). -/
def flagsGreater : Byte := 0x02

/-- `fl` with L alone, bit 2 (R15). -/
def flagsLess : Byte := 0x04

/-- The Equal flag, bit 0 of `fl` (R15), the only flag an instruction reads (R16). -/
def State.flagE (s : State) : Bool := s.fl.getLsbD 0

/-- The GreaterThan flag, bit 1 of `fl` (R15). -/
def State.flagG (s : State) : Bool := s.fl.getLsbD 1

/-- The LessThan flag, bit 2 of `fl` (R15). -/
def State.flagL (s : State) : Bool := s.fl.getLsbD 2

/-- What CMP leaves in `fl` for operand values `va` and `vb`: exactly one flag (R75). The comparison is unsigned
(decision D22, log 13). -/
def compareFlags (va vb : Byte) : Byte :=
  if va = vb then flagsEqual else if vb < va then flagsGreater else flagsLess

end Sys2Proof.Machine
end

