-- ==== Sys2Proof/Machine/Operands.lean ====
section
/-! DEFINITION. The operand forms: a register byte (R54) and an immediate byte (R55); there is no other (R52). -/

namespace Sys2Proof.Machine

/-- `ridx(b) = b[2:0]`: the register an operand byte selects; bits 7 to 3 are ignored (R54). UNVERIFIED: masking a byte
above 7 is the spec's decision D8 (log 4). -/
def ridx (b : Byte) : RegIdx := ⟨(b.extractLsb' 0 3).toNat, (b.extractLsb' 0 3).isLt⟩

/-- The value of a register operand. -/
def regOperand (b : Byte) (s : State) : Byte := s.reg (ridx b)

/-- The value of an immediate operand: the byte taken whole, not extended, scaled or shifted (R55). -/
def immOperand (b : Byte) : Byte := b

end Sys2Proof.Machine
end

