-- ==== Sys2Proof/Machine/Alu.lean ====
section
/-! DEFINITION. The ALU as a unit (40_alu_unit.md). -/

namespace Sys2Proof.Machine

/-- The operation selector: a closed set of five (R70, R76). -/
inductive AluOp where
  | add | sub | mul | or | cmp
  deriving DecidableEq, Repr

/-- `apply(operation, reg_a, reg_b)` (R70): both operands are read before anything is written; ADD, SUB, MUL and OR write
`x[a]` and nothing else (R71 to R74), CMP writes `fl` and nothing else (R75). -/
def aluApply (op : AluOp) (a b : RegIdx) (s : State) : State :=
  let va := s.reg a
  let vb := s.reg b
  match op with
  | .add => s.setReg a (va + vb)
  | .sub => s.setReg a (va - vb)
  | .mul => s.setReg a (va * vb)
  | .or => s.setReg a (va ||| vb)
  | .cmp => s.setFl (compareFlags va vb)

end Sys2Proof.Machine
end

