-- ==== Sys2Proof/Machine/AluInstr.lean ====
section
/-! DEFINITION. MUL, ADD, CMP and OR (44_alu_instructions.md): how each drives the ALU. There is no SUB instruction
(R120). -/

namespace Sys2Proof.Machine

/-- What the four have in common (R115): the ALU with the instruction's operation on the registers that the two operand
bytes select, then the PC update. -/
def aluInstr (o : Opcode) (op : AluOp) (opa opb : Byte) (s : State) : Result :=
  .next (pcUpdate o s.pc (aluApply op (ridx opa) (ridx opb) s))

/-- MUL a, b (R116). -/
def execMul (opa opb : Byte) (s : State) : Result := aluInstr .mul .mul opa opb s

/-- ADD a, b (R117). -/
def execAdd (opa opb : Byte) (s : State) : Result := aluInstr .add .add opa opb s

/-- CMP a, b: "clear flags", then ALU CMP; `pc` and the registers do not depend on the clearing (R118). -/
def execCmp (opa opb : Byte) (s : State) : Result := aluInstr .cmp .cmp opa opb (s.setFl flagsClear)

/-- OR a, b (R119). -/
def execOr (opa opb : Byte) (s : State) : Result := aluInstr .or .or opa opb s

end Sys2Proof.Machine
end

