-- ==== Sys2Proof/Machine/Jumps.lean ====
section
/-! DEFINITION. JMP, JEQ and JNE (45_jumps.md). Their opcodes set the PC themselves, so the PC-update logic that follows
does nothing (R86, R125). -/

namespace Sys2Proof.Machine

/-- The handler of a conditional jump (R127, R128): the target is the whole register, and the fall-through skips the
opcode and its one operand byte. -/
def jumpIf (taken : Bool) (opa : Byte) (s : State) : State :=
  if taken then s.setPc (regOperand opa s) else s.setPc (s.pc + 2)

/-- JMP a (R126). -/
def execJmp (opa : Byte) (s : State) : Result := .next (pcUpdate .jmp s.pc (s.setPc (regOperand opa s)))

/-- JEQ a: jumps when E is set (R127). -/
def execJeq (opa : Byte) (s : State) : Result := .next (pcUpdate .jeq s.pc (jumpIf s.flagE opa s))

/-- JNE a: jumps when E is clear (R128). -/
def execJne (opa : Byte) (s : State) : Result := .next (pcUpdate .jne s.pc (jumpIf (!s.flagE) opa s))

end Sys2Proof.Machine
end

