-- ==== Sys2Proof/Machine/LoadStack.lean ====
section
/-! DEFINITION. LDI, PUSH and POP (43_load_stack.md). -/

namespace Sys2Proof.Machine

/-- LDI a, imm (R106). -/
def execLdi (opa imm : Byte) (s : State) : Result :=
  .next (pcUpdate .ldi s.pc (s.setReg (ridx opa) (immOperand imm)))

/-- The handler of PUSH, in the source's order: decrement the stack pointer, then read the source register and write it to
the cell at the new pointer (R107), so that PUSH R7 stores the decremented pointer (R108). The pointer wraps
modulo 256 (R38). UNVERIFIED: the wrap is the spec's decision D7 (log 3). -/
def pushReg (a : RegIdx) (s : State) : State :=
  let s1 := s.setReg Config.sp (s.reg Config.sp - 1)
  s1.memWrite (s1.reg Config.sp) (s1.reg a)

/-- The handler of POP, in the source's order: load the register from the cell at the stack pointer, then increment the
pointer (R109), so that POP R7 ends with the loaded byte plus 1 (R110). The pointer wraps modulo 256 (R38).
UNVERIFIED: the wrap is the spec's decision D7 (log 3). -/
def popReg (a : RegIdx) (s : State) : State :=
  let s1 := s.setReg a (s.memRead (s.reg Config.sp))
  s1.setReg Config.sp (s1.reg Config.sp + 1)

/-- PUSH a (R107). -/
def execPush (opa : Byte) (s : State) : Result := .next (pcUpdate .push s.pc (pushReg (ridx opa) s))

/-- POP a (R109). -/
def execPop (opa : Byte) (s : State) : Result := .next (pcUpdate .pop s.pc (popReg (ridx opa) s))

end Sys2Proof.Machine
end

