-- ==== Sys2Proof/Machine/System.lean ====
section
/-! DEFINITION. HLT and PRN (42_system_output.md). -/

namespace Sys2Proof.Machine

/-- HLT (R100); the step still advances `pc` by 1 (R88). UNVERIFIED: that advance is the spec's decision D9 (log 5). -/
def execHlt (s : State) : Result := .next (pcUpdate .hlt s.pc (s.setStatus .halted))

/-- PRN a (R101): the pair emitted holds the index of the register read. -/
def execPrn (opa : Byte) (s : State) : Result :=
  .next (pcUpdate .prn s.pc (s.output (ridx opa) (regOperand opa s)))

/-- The text line the surrounding software writes for an output pair: both numbers in decimal without padding (R102). -/
def OutputPair.line (p : OutputPair) : String :=
  "REGISTER: " ++ Nat.repr p.index.val ++ ", VALUE: " ++ Nat.repr p.value.toNat

end Sys2Proof.Machine
end

