-- ==== Sys2Proof/Machine/Dispatch.lean ====
section
/-! DEFINITION. The decoder's dispatch: one handler per instruction (R83, R84), each with the PC update that follows it. -/

namespace Sys2Proof.Machine

def exec (i : Instr) (s : State) : Host.Outcome State Fault Refusal :=
  match i with
  | .hlt => Sys2Proof.Machine.execHlt s
  | .ldi opa imm => Sys2Proof.Machine.execLdi opa imm s
  | .prn opa => Sys2Proof.Machine.execPrn opa s
  | .mul opa opb => Sys2Proof.Machine.execMul opa opb s
  | .add opa opb => Sys2Proof.Machine.execAdd opa opb s
  | .push opa => Sys2Proof.Machine.execPush opa s
  | .pop opa => Sys2Proof.Machine.execPop opa s
  | .cmp opa opb => Sys2Proof.Machine.execCmp opa opb s
  | .jmp opa => Sys2Proof.Machine.execJmp opa s
  | .jeq opa => Sys2Proof.Machine.execJeq opa s
  | .jne opa => Sys2Proof.Machine.execJne opa s
  | .or opa opb => Sys2Proof.Machine.execOr opa opb s

end Sys2Proof.Machine
end

