-- ==== Sys2Proof/Machine/Step.lean ====
section
/-! DEFINITION. One fetch-decode-execute step (R80). -/

namespace Sys2Proof.Machine

/-- One step: fetch three bytes, decode, run the handler and the PC update, or enter the fatal condition UnknownOpcode.
Defined only while Running. -/
def step (s : State) : Host.Outcome State Fault Refusal :=
  match noStep s.status with
  | some f => .fault f
  | none =>
    match decode (fetch s).ir (fetch s).opa (fetch s).opb with
    | .error _ => unknownOpcodeStep (fetch s) s
    | .ok i => exec i s

/-- The state with one instruction, given by its bits as spec/opcode_table.json numbers them, stored in the three cells
that the next step fetches. It stands for the load of a program from outside (R45, log 12); because a step is defined
only while Running, it also puts the status there with an empty fault record, which at reset changes nothing. -/
def State.withFetchWord (s : State) (nbits w : Nat) : State :=
  { ((s.memWrite s.pc (tableByte nbits w 0)).memWrite (s.pc + 1) (tableByte nbits w 1)).memWrite (s.pc + 2)
      (tableByte nbits w 2) with status := .running, fault := none }

end Sys2Proof.Machine
end

