-- ==== Sys2Proof/Machine/Run.lean ====
section
/-! DEFINITION. The host's side: loading an image (R45), the launch state (R162) and the run loop (R90). -/

namespace Sys2Proof.Machine

/-- The bytes of an image into the cells from `i` upward, in order. -/
def loadFrom : Nat → List Byte → Memory → Memory
  | _, [], m => m
  | i, v :: image, m => loadFrom (i + 1) image (Memory.write m i v)

/-- `load(image)` (R45): `MemWrite(i, 1, image[i])` for every byte; not defined for an image of more than 256 bytes
(decision D16, log 12). The host may use it only between `reset` and the first step (R5, R161), which is how `launch`
uses it. -/
def load (image : List Byte) (s : State) : Result :=
  if image.length ≤ Config.memSize then .next { s with mem := loadFrom 0 image s.mem } else .refused .imageTooLong

/-- The launch state of a program (R161, R162): reset, then load. -/
def launch (image : List Byte) : Result := load image State.reset

/-- The run loop, `fuel` steps of it at most: "while `status = Running`, perform `step`" (R90). The machine itself has no
step limit; a run that is still Running when the fuel ends has no final state yet (R91). -/
def runLoop : Nat → State → State
  | 0, s => s
  | fuel + 1, s =>
    if s.status = .running then
      match step s with
      | .next t => runLoop fuel t
      | .fault _ => s
      | .refused _ => s
    else s

end Sys2Proof.Machine
end

