-- ==== Sys2Proof/Safety.lean ====
section
/-! DEFINITION. The terms the claims use: the frame, the machine's invariant, reachability, and what a good run is. -/

namespace Sys2Proof.Safety

open Sys2Proof.Machine

/-- Every cell reads as before. -/
def SameMemory (s t : State) : Prop := ∀ addr : Byte, t.memRead addr = s.memRead addr

/-- Every general register outside the list is unchanged. -/
def SameRegsExcept (rs : List RegIdx) (s t : State) : Prop := ∀ r : RegIdx, r ∉ rs → t.reg r = s.reg r

/-- Status and fault record are unchanged. -/
def SameControl (s t : State) : Prop := t.status = s.status ∧ t.fault = s.fault

/-- `pc` advanced from `s` to `t` by `n`, modulo 256 (R14, R87). -/
def PcAdvanced (n : Nat) (s t : State) : Prop := t.pc.toNat = (s.pc.toNat + n) % 256

/-- The frame of an instruction whose one result is register `d` and whose length is `n`: every other register, every
flag, the status, the fault record, every cell and the output stream are unchanged, and `pc` advances by `n`. -/
def RegisterResultFrame (d : RegIdx) (n : Nat) (s t : State) : Prop :=
  SameRegsExcept [d] s t ∧ PcAdvanced n s t ∧ t.fl = s.fl ∧ SameControl s t ∧ SameMemory s t ∧ t.out = s.out

/-- The frame of a jump: everything but `pc` is unchanged (R125). -/
def JumpFrame (s t : State) : Prop :=
  SameRegsExcept [] s t ∧ t.fl = s.fl ∧ SameControl s t ∧ SameMemory s t ∧ t.out = s.out

/-- The instruction with every register operand byte reduced to its low three bits (R54); an immediate stays whole. -/
def maskRegs : Instr → Instr
  | .hlt => .hlt
  | .ldi opa imm => .ldi (opa &&& 7) imm
  | .prn opa => .prn (opa &&& 7)
  | .mul opa opb => .mul (opa &&& 7) (opb &&& 7)
  | .add opa opb => .add (opa &&& 7) (opb &&& 7)
  | .push opa => .push (opa &&& 7)
  | .pop opa => .pop (opa &&& 7)
  | .cmp opa opb => .cmp (opa &&& 7) (opb &&& 7)
  | .jmp opa => .jmp (opa &&& 7)
  | .jeq opa => .jeq (opa &&& 7)
  | .jne opa => .jne (opa &&& 7)
  | .or opa opb => .or (opa &&& 7) (opb &&& 7)

/-- `fl` is one of the four values R17 allows. -/
abbrev FlagsLegal (s : State) : Prop := s.fl = 0x00 ∨ s.fl = 0x01 ∨ s.fl = 0x02 ∨ s.fl = 0x04

/-- The fault record is empty unless the status is Faulted (R19), and then it names UnknownOpcode, the cell `pc` still
points at and the unregistered byte in it (R141, R142). -/
def faultRecordTrue (s : State) : Bool :=
  match s.status, s.fault with
  | .faulted, some r =>
    r.cause == .unknownOpcode && r.addr == s.pc && r.opcode == s.memRead s.pc && (lookupOpcode r.opcode).isNone
  | .faulted, none => false
  | _, some _ => false
  | _, none => true

/-- A halted machine's `pc` is one past a HLT byte (R88, R92). -/
abbrev HaltedPastHlt (s : State) : Prop := s.status = .halted → s.memRead (s.pc - 1) = opc .hlt

/-- The invariant that every step keeps. -/
abbrev Inv (s : State) : Prop :=
  Memory.wf s.mem ∧ FlagsLegal s ∧ faultRecordTrue s = true ∧ HaltedPastHlt s

/-- `t` is reached from `s` by some number of steps. -/
inductive Reaches : State → State → Prop where
  | refl (s : State) : Reaches s s
  | step {s t u : State} (h : Machine.step s = .next t) (r : Reaches t u) : Reaches s u

/-- The only good end of a run (R91, R143): it reaches Halted. -/
def HaltsAt (s t : State) : Prop := Reaches s t ∧ t.status = .halted

/-- A run that ends in a fatal condition; it refutes a claim that the program computes something (R143). -/
def FaultsAt (s t : State) : Prop := Reaches s t ∧ t.status = .faulted

/-- A run that never ends (R91): it is Running after every number of steps. -/
def RunsForever (s : State) : Prop := ∀ n : Nat, (runLoop n s).status = .running

end Sys2Proof.Safety
end

