-- ==== Sys2Proof/Certificates/Slice0/Obligations.lean ====
section
/-! DEFINITION. The statements for the provers. Where a docstring names a decision D<n>, the clause is the spec's own
decision (spec/92_eei_decisions.md) and not the source's words; where it names a log entry, the clause is the model's. -/

open Sys2Proof Sys2Proof.Machine Sys2Proof.Safety

/-! ### Reset and launch -/

/-- R160, R25: what reset leaves in every field. `pc` and `fl` are decisions D3 and D4, the empty fault record D10, the
empty output stream D14. -/
def Obligations.ResetLeavesTheStatedValues : Prop :=
  (∀ r : RegIdx, State.reset.reg r = if r = 7 then 0xF4 else 0x00) ∧
    State.reset.pc = 0x00 ∧ State.reset.fl = 0x00 ∧ State.reset.status = .running ∧ State.reset.fault = none ∧
    (∀ addr : Byte, State.reset.memRead addr = 0x00) ∧ State.reset.out = []

/-- R45, R162: the launch state of an image of at most 256 bytes holds the image from cell 0 and zero above it, and is the
reset state in every other respect; a longer image is refused (decision D16). -/
def Obligations.LaunchHoldsTheImage : Prop :=
  (∀ image : List Byte, image.length ≤ 256 →
    ∃ s, launch image = .next s ∧
      (∀ addr : Byte, s.memRead addr = if addr.toNat < image.length then image.getD addr.toNat 0 else 0x00) ∧
      (∀ r : RegIdx, s.reg r = State.reset.reg r) ∧ s.pc = State.reset.pc ∧ s.fl = State.reset.fl ∧
      s.status = .running ∧ s.fault = none ∧ s.out = []) ∧
  ∀ image : List Byte, 256 < image.length → launch image = .refused .imageTooLong

/-! ### Encoding -/

/-- R56: the model's opcode bytes are twelve distinct bytes whose operand-count and sets-PC fields are those the source's
handler table fixes. -/
def Obligations.OpcodeBytesMatchTheSourcePatterns : Prop :=
  (∀ o p : Opcode, opc o = opc p → o = p) ∧
  (∀ o ∈ [Opcode.hlt], operandCount (opc o) = 0b00 ∧ setsPc (opc o) = false) ∧
  (∀ o ∈ [Opcode.prn, .push, .pop], operandCount (opc o) = 0b01 ∧ setsPc (opc o) = false) ∧
  (∀ o ∈ [Opcode.jmp, .jeq, .jne], operandCount (opc o) = 0b01 ∧ setsPc (opc o) = true) ∧
  (∀ o ∈ [Opcode.ldi, .mul, .add, .cmp, .or], operandCount (opc o) = 0b10 ∧ setsPc (opc o) = false)

/-- R57, R60: which bytes are registered. The twelve values are "from general knowledge, not in source" (decision D1,
log 1); that the 244 others fault is decision D2. -/
def Obligations.ExactlyTwelveBytesAreRegistered : Prop :=
  (∀ ir : Byte, (lookupOpcode ir).isSome =
    decide (ir ∈ [0x01, 0x82, 0x47, 0xA2, 0xA0, 0x45, 0x46, 0xA7, 0x54, 0x55, 0x56, 0xAA])) ∧
  ((List.range 256).filter fun n => (lookupOpcode (BitVec.ofNat 8 n)).isNone).length = 244

/-- Words written out from the encodings of the instruction rules, one or more of every family. The opcode bytes are
decision D1 (log 1). -/
def Obligations.SpecWordsDecode : Prop :=
  decode 0b00000001 0b01010101 0b11111111 = .ok .hlt ∧
  decode 0b10000010 0b00000000 0b00001000 = .ok (.ldi 0 8) ∧
  decode 0b01000111 0b00000000 0b00000001 = .ok (.prn 0) ∧
  decode 0b10100010 0b00000000 0b00000001 = .ok (.mul 0 1) ∧
  decode 0b01000101 0b00000111 0b00000000 = .ok (.push 7) ∧
  decode 0b01010101 0b00000011 0b00000000 = .ok (.jeq 3)

/-- R58: the byte selects a handler if and only if it is one of the twelve registered bytes, and which handler it selects
depends on that byte and on nothing else. -/
def Obligations.DecoderSelectsByTheOpcodeByteAlone : Prop :=
  (∀ ir opa opb : Byte, (∃ i, decode ir opa opb = .ok i) ↔ ∃ o : Opcode, ir = opc o) ∧
  (∀ ir opa opb : Byte, ∀ i, decode ir opa opb = .ok i → opc i.op = ir) ∧
  ∀ ir opa opb opa' opb' : Byte, ∀ i i', decode ir opa opb = .ok i → decode ir opa' opb' = .ok i' → i.op = i'.op

/-- R50, R52: decoding the bytes of any instruction, whatever follows them, gives the instruction back, and whatever
decodes has its own bytes at the front; no bit of an encoding is dropped, and the length is `1 + ir[7:6]`. -/
def Obligations.DecodeAndEncodeAreInverse : Prop :=
  (∀ (i : Instr) (rest : List Byte), decodeBytes (encode i ++ rest) = .ok i) ∧
  ∀ ir opa opb : Byte, ∀ i, decode ir opa opb = .ok i →
    encode i <+: [ir, opa, opb] ∧ (encode i).length = 1 + (operandCount ir).toNat

/-- R53, R62: a byte beyond the instruction's own length does not matter to what is decoded. -/
def Obligations.UnusedOperandBytesAreIgnored : Prop :=
  ∀ ir opa opb opa' opb' : Byte, ∀ i, decode ir opa opb = .ok i →
    (0 < (operandCount ir).toNat → opa' = opa) → (1 < (operandCount ir).toNat → opb' = opb) →
    decode ir opa' opb' = .ok i

/-- R54: bits 7 to 3 of a register operand byte do not matter to what any instruction does, and what is left is a
register number the source defines. Masking is decision D8 (log 4). -/
def Obligations.RegisterBytesActByTheirLowThreeBits : Prop :=
  ∀ (i : Instr) (s : State), exec i s = exec (maskRegs i) s ∧ (maskRegs i).wellFormed = true

/-! ### The step -/

/-- R80, R84: while Running, if the three fetched bytes decode to an instruction, the step is that instruction, whose
meaning includes the PC update (log 10). -/
def Obligations.StepRunsTheDecodedInstruction : Prop :=
  ∀ (s : State) (i : Instr), s.status = .running →
    decode (s.memRead s.pc) (s.memRead (s.pc + 1)) (s.memRead (s.pc + 2)) = .ok i → step s = exec i s

/-- R35, R80: while Running, if the cells from `pc` upward, modulo 256, hold the bytes of an instruction, the step is that
instruction. The wrap of the addresses is decision D5 (log 2). -/
def Obligations.StepRunsTheInstructionInMemory : Prop :=
  ∀ (s : State) (i : Instr), s.status = .running →
    (∀ (k : Nat) (v : Byte), (encode i)[k]? = some v → Memory.read s.mem ((s.pc.toNat + k) % 256) = v) →
    step s = exec i s

/-- R37, R81: the three addresses of the fetch, modulo 256 (decision D5, log 2). -/
def Obligations.FetchAddressesWrap : Prop :=
  ∀ s : State, (fetch s).ir = Memory.read s.mem s.pc.toNat ∧
    (fetch s).opa = Memory.read s.mem ((s.pc.toNat + 1) % 256) ∧
    (fetch s).opb = Memory.read s.mem ((s.pc.toNat + 2) % 256)

/-- R83, R141, R142: an unregistered byte at `pc` makes the step enter Faulted with the fault record written and nothing
else changed. Decisions D2 and D10 (log 7). -/
def Obligations.UnregisteredOpcodeFaultsPrecisely : Prop :=
  ∀ s : State, s.status = .running → (∀ o : Opcode, s.memRead s.pc ≠ opc o) →
    ∃ t, step s = .next t ∧ t.status = .faulted ∧ t.fault = some ⟨.unknownOpcode, s.pc, s.memRead s.pc⟩ ∧
      SameRegsExcept [] s t ∧ t.pc = s.pc ∧ t.fl = s.fl ∧ SameMemory s t ∧ t.out = s.out

/-- R80, R91: no step is defined unless the status is Running (decision D19); the two names are the model's (log 8). -/
def Obligations.NoStepUnlessRunning : Prop :=
  ∀ s : State, (s.status = .halted → step s = .fault .halted) ∧ (s.status = .faulted → step s = .fault .faulted) ∧
    (s.status ≠ .running → ∀ t, step s ≠ .next t)

/-- R175, R18, R91: a Running machine always takes a step; it ends Halted exactly if the byte at `pc` is HLT's, Faulted
exactly if it is unregistered, Running otherwise. Faulted is decision D10. -/
def Obligations.RunningStepsAreTotal : Prop :=
  ∀ s : State, s.status = .running →
    ∃ t, step s = .next t ∧ (t.status = .halted ↔ s.memRead s.pc = opc .hlt) ∧
      (t.status = .faulted ↔ ∀ o : Opcode, s.memRead s.pc ≠ opc o)

/-- R86, R87: where the byte at `pc` is registered, `pc` after the step is the address after the instruction if bit 4 of
that byte is 0, and the register's value or the fall-through by 2 if it is 1. The wrap is decision D6 (log 2). -/
def Obligations.PcFollowsTheFetchedOpcode : Prop :=
  ∀ (s : State) (o : Opcode), s.status = .running → s.memRead s.pc = opc o →
    ∃ t, step s = .next t ∧
      (setsPc (s.memRead s.pc) = false →
        t.pc.toNat = (s.pc.toNat + 1 + (operandCount (s.memRead s.pc)).toNat) % 256) ∧
      (setsPc (s.memRead s.pc) = true → t.pc = s.reg (ridx (s.memRead (s.pc + 1))) ∨ PcAdvanced 2 s t)

/-- R18, R19, R152: `exec` answers a next state for every instruction in every state, and neither the status nor the fault
record has any influence on what it does to the registers, `pc`, `fl`, memory and output ("No instruction reads the
status"; of the record, "no instruction reads it"). The status Faulted and the record are decision D10. It is about `exec`,
the handler with its PC update (log 10), not about `step`, which runs nothing in Halted or Faulted (R91). -/
def Obligations.EveryInstructionExecutesInEveryState : Prop :=
  ∀ (i : Instr) (s : State) (st : Status) (f : Option FaultRecord),
    ∃ t u, exec i s = .next t ∧ exec i { s with status := st, fault := f } = .next u ∧
      u.regs = t.regs ∧ u.pc = t.pc ∧ u.fl = t.fl ∧ u.mem = t.mem ∧ u.out = t.out

/-! ### Whole-machine rules -/

/-- R16, R171: only CMP writes `fl`, and it leaves exactly one of three values. -/
def Obligations.OnlyCmpWritesTheFlags : Prop :=
  ∀ s t : State, step s = .next t →
    (s.memRead s.pc ≠ opc .cmp → t.fl = s.fl) ∧
    (s.memRead s.pc = opc .cmp → t.fl = 0x01 ∨ t.fl = 0x02 ∨ t.fl = 0x04)

/-- R34, R41: only PUSH writes memory, and only the cell at the decremented stack pointer. -/
def Obligations.OnlyPushWritesMemory : Prop :=
  ∀ s t : State, step s = .next t →
    (s.memRead s.pc ≠ opc .push → SameMemory s t) ∧
    (s.memRead s.pc = opc .push → ∀ addr : Byte, addr ≠ s.reg 7 - 1 → t.memRead addr = s.memRead addr)

/-- R12, R170: which steps write a general register, and which register. The R7 role of PUSH and POP is R11. -/
def Obligations.RegistersAreWrittenOnlyAsTheTableSays : Prop :=
  ∀ (s t : State) (r : RegIdx), step s = .next t → t.reg r ≠ s.reg r →
    (s.memRead s.pc ∈ [opc .ldi, opc .mul, opc .add, opc .or, opc .pop] ∧ r = ridx (s.memRead (s.pc + 1))) ∨
    (s.memRead s.pc ∈ [opc .push, opc .pop] ∧ r = 7)

/-- R21: the output stream is append-only and PRN its only writer; the pair is decision D14 (log 11). -/
def Obligations.OnlyPrnAppendsToTheOutput : Prop :=
  ∀ s t : State, step s = .next t →
    (s.memRead s.pc ≠ opc .prn → t.out = s.out) ∧
    (s.memRead s.pc = opc .prn →
      t.out = s.out ++ [⟨ridx (s.memRead (s.pc + 1)), s.reg (ridx (s.memRead (s.pc + 1)))⟩])

/-- R21: nothing in the machine reads the output stream: a step from the same state with another stream appends the same
pairs and does the same to everything else. -/
def Obligations.TheOutputIsNeverRead : Prop :=
  ∀ (s t : State) (o : List OutputPair), step s = .next t →
    ∃ e, t.out = s.out ++ e ∧ step { s with out := o } = .next { t with out := o ++ e }

/-- R16: of the flags only bit 0 is read: a step from the same state with other bits 7 to 1 of `fl` keeps those bits, or
overwrites them all if it is CMP, and does the same to everything else. -/
def Obligations.OnlyTheEqualFlagIsRead : Prop :=
  ∀ (s t : State) (f : Byte), step s = .next t → f.getLsbD 0 = s.fl.getLsbD 0 →
    step { s with fl := f } = .next (if s.memRead s.pc = opc .cmp then t else { t with fl := f })

/-! ### The invariant -/

/-- The reset state meets the invariant: legal flags (R25; `fl` is decision D4), empty fault record (R25, decision D10), not
halted (R25), and the canonical form of memory, which is the model's own choice (log 16). -/
def Obligations.ResetMeetsTheInvariant : Prop := Inv State.reset

/-- So does the launch state of every image of at most 256 bytes (R45, R162, decision D16): the loaded memory is in the
canonical form, which is the model's own choice (log 16), and every other field is as at reset. -/
def Obligations.LaunchMeetsTheInvariant : Prop :=
  ∀ image : List Byte, image.length ≤ 256 → ∃ s, launch image = .next s ∧ Inv s

/-- Every step keeps the invariant: memory keeps its canonical form (log 16), `fl` stays one of the four values of R17,
the fault record is empty unless Faulted and then true of the state it stopped in (R19, R142, decision D10; its cause is
never UnsupportedOperation, R76), and a halted `pc` is one past a HLT byte (R88, decision D9). -/
def Obligations.EveryStepKeepsTheInvariant : Prop :=
  ∀ s t : State, Inv s → step s = .next t → Inv t

/-- R17: on every run from a launch state `fl` is one of the four values, and it is 0x00 only if no CMP has executed. That
it starts at 0x00 is decision D4. -/
def Obligations.FlagsOnEveryRunFromLaunch : Prop :=
  ∀ (image : List Byte) (s t : State), launch image = .next s → Reaches s t →
    FlagsLegal t ∧
    (t.fl = 0x00 → ∀ u v : State, Reaches s u → step u = .next v → Reaches v t → u.memRead u.pc ≠ opc .cmp)

/-! ### The ALU -/

/-- R71: ALU ADD. -/
def Obligations.AluAddKeepsTheLowByte : Prop :=
  ∀ (a b : RegIdx) (s : State),
    ((aluApply .add a b s).reg a).toNat = ((s.reg a).toNat + (s.reg b).toNat) % 256 ∧
    (aluApply .add a b s).fl = s.fl

/-- R72: ALU SUB, the non-negative residue; no instruction selects it (R120). -/
def Obligations.AluSubIsTheResidue : Prop :=
  ∀ (a b : RegIdx) (s : State),
    (((aluApply .sub a b s).reg a).toNat : Int) = ((s.reg a).toNat - (s.reg b).toNat : Int) % 256 ∧
    (aluApply .sub a b s).fl = s.fl

/-- R73: ALU MUL; and there is no divide and no remainder among the five operations. -/
def Obligations.AluMulKeepsTheLowByte : Prop :=
  (∀ op : AluOp, op ∈ [AluOp.add, .sub, .mul, .or, .cmp]) ∧
  ∀ (a b : RegIdx) (s : State),
    ((aluApply .mul a b s).reg a).toNat = ((s.reg a).toNat * (s.reg b).toNat) % 256 ∧
    (aluApply .mul a b s).fl = s.fl

/-- R74: ALU OR, bit by bit. -/
def Obligations.AluOrIsBitwise : Prop :=
  ∀ (a b : RegIdx) (s : State),
    (∀ k < 8, ((aluApply .or a b s).reg a).getLsbD k = ((s.reg a).getLsbD k || (s.reg b).getLsbD k)) ∧
    (aluApply .or a b s).fl = s.fl

/-- R75: ALU CMP replaces the whole of `fl`, whatever it held, by one of three values. That the comparison is unsigned is
decision D22 (log 13). -/
def Obligations.AluCompareReplacesTheFlags : Prop :=
  ∀ (a b : RegIdx) (s : State),
    (s.reg a = s.reg b → (aluApply .cmp a b s).fl = 0x01) ∧
    ((s.reg b).toNat < (s.reg a).toNat → (aluApply .cmp a b s).fl = 0x02) ∧
    ((s.reg a).toNat < (s.reg b).toNat → (aluApply .cmp a b s).fl = 0x04) ∧
    ∀ f : Byte, (aluApply .cmp a b (s.setFl f)).fl = (aluApply .cmp a b s).fl

/-- R70: whatever the operation, the ALU writes `x[a]` and nothing else, or `fl` and nothing else; with `a = b` both operands
are the one register's old value; the selector has exactly five values. -/
def Obligations.AluTouchesOnlyItsResult : Prop :=
  (∀ op : AluOp, op = .add ∨ op = .sub ∨ op = .mul ∨ op = .or ∨ op = .cmp) ∧
  ∀ (op : AluOp) (a b : RegIdx) (s t : State), t = aluApply op a b s →
    SameRegsExcept (if op = .cmp then [] else [a]) s t ∧ (op ≠ .cmp → t.fl = s.fl) ∧
    t.pc = s.pc ∧ SameControl s t ∧ SameMemory s t ∧ t.out = s.out ∧
    (a ≠ b → t.reg b = s.reg b) ∧
    -- the result depends on nothing but the operation and the two registers' old values
    ∀ (c d : RegIdx) (u : State), u.reg c = s.reg a → u.reg d = s.reg b →
      (op ≠ .cmp → (aluApply op c d u).reg c = t.reg a) ∧ (op = .cmp → (aluApply op c d u).fl = t.fl)

/-! ### Memory -/

/-- R33: a write replaces the content of its cell and changes nothing else, and every later read sees it, fetches included. -/
def Obligations.MemoryReadsBackWhatWasWritten : Prop :=
  ∀ (s : State) (addr v : Byte),
    (s.memWrite addr v).memRead addr = v ∧
    (∀ other : Byte, other ≠ addr → (s.memWrite addr v).memRead other = s.memRead other) ∧
    SameRegsExcept [] s (s.memWrite addr v) ∧ (s.memWrite addr v).pc = s.pc ∧ (s.memWrite addr v).fl = s.fl ∧
    SameControl s (s.memWrite addr v) ∧ (s.memWrite addr v).out = s.out ∧
    (s.pc = addr → (fetch (s.memWrite addr v)).ir = v) ∧ (s.pc + 1 = addr → (fetch (s.memWrite addr v)).opa = v) ∧
    (s.pc + 2 = addr → (fetch (s.memWrite addr v)).opb = v)

/-- The model's own representation (log 16): a write keeps the canonical form, and canonical memories that read the same
at all 256 addresses are the same data. -/
def Obligations.CanonicalMemoriesThatReadAlikeAreEqual : Prop :=
  (∀ (m : Memory) (addr v : Byte), Memory.wf m → Memory.wf (Memory.write m addr.toNat v)) ∧
  ∀ m n : Memory, Memory.wf m → Memory.wf n →
    (∀ addr : Byte, Memory.read m addr.toNat = Memory.read n addr.toNat) → m = n

/-! ### The instructions: result, completion and frame

In every one of them the register a byte selects is `ridx` of the byte (decision D8 for bytes above 7) and the advance of
`pc` is modulo 256 (decision D6). -/

/-- R100, R88: HLT. That `pc` advances is decision D9 (log 5). -/
def Obligations.HltHaltsAndAdvances : Prop :=
  ∀ s : State, ∃ t, exec .hlt s = .next t ∧ t.status = .halted ∧ PcAdvanced 1 s t ∧
    SameRegsExcept [] s t ∧ t.fl = s.fl ∧ t.fault = s.fault ∧ SameMemory s t ∧ t.out = s.out

/-- R101: PRN a. The pair emitted is decision D14 (log 11). -/
def Obligations.PrnEmitsTheRegister : Prop :=
  ∀ (opa : Byte) (s : State), ∃ t, exec (.prn opa) s = .next t ∧
    t.out = s.out ++ [⟨ridx opa, s.reg (ridx opa)⟩] ∧ (ridx opa).val = opa.toNat % 8 ∧
    PcAdvanced 2 s t ∧ SameRegsExcept [] s t ∧ t.fl = s.fl ∧ SameControl s t ∧ SameMemory s t

/-- R106: LDI a, imm. -/
def Obligations.LdiLoadsTheImmediate : Prop :=
  ∀ (opa imm : Byte) (s : State), ∃ t, exec (.ldi opa imm) s = .next t ∧
    t.reg (ridx opa) = imm ∧ RegisterResultFrame (ridx opa) 3 s t

/-- R116: MUL a, b. -/
def Obligations.MulWritesTheLowByteOfTheProduct : Prop :=
  ∀ (opa opb : Byte) (s : State), ∃ t, exec (.mul opa opb) s = .next t ∧
    (t.reg (ridx opa)).toNat = ((s.reg (ridx opa)).toNat * (s.reg (ridx opb)).toNat) % 256 ∧
    RegisterResultFrame (ridx opa) 3 s t

/-- R117: ADD a, b. -/
def Obligations.AddWritesTheSumModulo256 : Prop :=
  ∀ (opa opb : Byte) (s : State), ∃ t, exec (.add opa opb) s = .next t ∧
    (t.reg (ridx opa)).toNat = ((s.reg (ridx opa)).toNat + (s.reg (ridx opb)).toNat) % 256 ∧
    RegisterResultFrame (ridx opa) 3 s t

/-- R119: OR a, b. -/
def Obligations.OrWritesTheBitwiseOr : Prop :=
  ∀ (opa opb : Byte) (s : State), ∃ t, exec (.or opa opb) s = .next t ∧
    (∀ k < 8, (t.reg (ridx opa)).getLsbD k =
      ((s.reg (ridx opa)).getLsbD k || (s.reg (ridx opb)).getLsbD k)) ∧
    RegisterResultFrame (ridx opa) 3 s t

/-- R107, R108: PUSH a. The stored cell is the one at the decremented pointer, PUSH R7 stores the decremented pointer, and
every other cell and register is unchanged. The wrap of the pointer is decision D7 (log 3). -/
def Obligations.PushStoresBelowTheOldPointer : Prop :=
  ∀ (opa : Byte) (s : State), ∃ t, exec (.push opa) s = .next t ∧
    (t.reg 7).toNat = ((s.reg 7).toNat + 255) % 256 ∧ SameRegsExcept [7] s t ∧
    t.memRead (s.reg 7 - 1) = (if ridx opa = 7 then s.reg 7 - 1 else s.reg (ridx opa)) ∧
    (∀ addr : Byte, addr ≠ s.reg 7 - 1 → t.memRead addr = s.memRead addr) ∧
    PcAdvanced 2 s t ∧ t.fl = s.fl ∧ SameControl s t ∧ t.out = s.out

/-- R109, R110: POP a. Every cell reads as before; POP R7 ends with the loaded byte plus 1. The wrap of the pointer is
decision D7 (log 3). -/
def Obligations.PopLoadsAndIncrements : Prop :=
  ∀ (opa : Byte) (s : State), ∃ t, exec (.pop opa) s = .next t ∧
    (ridx opa ≠ 7 → t.reg (ridx opa) = s.memRead (s.reg 7) ∧ (t.reg 7).toNat = ((s.reg 7).toNat + 1) % 256) ∧
    (ridx opa = 7 → (t.reg 7).toNat = ((s.memRead (s.reg 7)).toNat + 1) % 256) ∧
    SameRegsExcept [ridx opa, 7] s t ∧ SameMemory s t ∧
    PcAdvanced 2 s t ∧ t.fl = s.fl ∧ SameControl s t ∧ t.out = s.out

/-- R118: CMP a, b: exactly one flag, the rest of `fl` zero, and no register written. Unsigned is decision D22 (log 13). -/
def Obligations.CmpWritesTheFlagsAlone : Prop :=
  ∀ (opa opb : Byte) (s : State), ∃ t, exec (.cmp opa opb) s = .next t ∧
    t.fl = (if (s.reg (ridx opa)).toNat = (s.reg (ridx opb)).toNat then 0x01
      else if (s.reg (ridx opb)).toNat < (s.reg (ridx opa)).toNat then 0x02 else 0x04) ∧
    SameRegsExcept [] s t ∧ PcAdvanced 3 s t ∧ SameControl s t ∧ SameMemory s t ∧ t.out = s.out

/-- R15, R75: after CMP the three low bits of `fl` say equal, greater and less and the others are 0, and no instruction sets
a bit from 3 up. That greater and less are of unsigned values is decision D22 (log 13), and the register a byte above 7
selects is decision D8 (log 4). -/
def Obligations.FlagBitsSayEqualGreaterLess : Prop :=
  (∀ (opa opb : Byte) (s : State), ∃ t, exec (.cmp opa opb) s = .next t ∧
    (t.fl.getLsbD 0 = true ↔ s.reg (ridx opa) = s.reg (ridx opb)) ∧
    (t.fl.getLsbD 1 = true ↔ (s.reg (ridx opb)).toNat < (s.reg (ridx opa)).toNat) ∧
    (t.fl.getLsbD 2 = true ↔ (s.reg (ridx opa)).toNat < (s.reg (ridx opb)).toNat) ∧
    ∀ k : Nat, 3 ≤ k → t.fl.getLsbD k = false) ∧
  ∀ (i : Instr) (s t : State) (k : Nat), exec i s = .next t → 3 ≤ k → t.fl.getLsbD k = true →
    s.fl.getLsbD k = true

/-- R126: JMP a. -/
def Obligations.JmpGoesToTheRegister : Prop :=
  ∀ (opa : Byte) (s : State), ∃ t, exec (.jmp opa) s = .next t ∧ t.pc = s.reg (ridx opa) ∧ JumpFrame s t

/-- R127: JEQ a. The wrap of the fall-through is decision D6. -/
def Obligations.JeqJumpsWhenEqualIsSet : Prop :=
  ∀ (opa : Byte) (s : State), ∃ t, exec (.jeq opa) s = .next t ∧
    (s.fl.getLsbD 0 = true → t.pc = s.reg (ridx opa)) ∧ (s.fl.getLsbD 0 = false → PcAdvanced 2 s t) ∧ JumpFrame s t

/-- R128: JNE a. The wrap of the fall-through is decision D6. -/
def Obligations.JneJumpsWhenEqualIsClear : Prop :=
  ∀ (opa : Byte) (s : State), ∃ t, exec (.jne opa) s = .next t ∧
    (s.fl.getLsbD 0 = false → t.pc = s.reg (ridx opa)) ∧ (s.fl.getLsbD 0 = true → PcAdvanced 2 s t) ∧ JumpFrame s t

/-- R125: what the three jumps share: any target, the sets-PC bit, no write but `pc`, no fault of their own; a jump to a
cell that holds an unregistered byte faults in the next step, at the target. What that fault leaves, the status Faulted and
the record with the target as its address, is R141, R142 and R19 (decisions D2 and D10, log 7); the wrap of the fall-through
is decision D6 (log 2), and the register a byte above 7 selects is decision D8 (log 4). -/
def Obligations.JumpsWriteOnlyThePc : Prop :=
  ∀ (opa : Byte) (i : Instr) (s : State), i = .jmp opa ∨ i = .jeq opa ∨ i = .jne opa →
    setsPc (opc i.op) = true ∧
    ∃ t, exec i s = .next t ∧ JumpFrame s t ∧
      (t.pc = s.reg (ridx opa) ∨ i ≠ .jmp opa ∧ t.pc = s.pc + 2) ∧
      (t.status = .running → (∀ o : Opcode, t.memRead t.pc ≠ opc o) →
        ∃ u, step t = .next u ∧ u.status = .faulted ∧ u.fault = some ⟨.unknownOpcode, t.pc, t.memRead t.pc⟩)

/-! ### Sequences and runs -/

/-- R103: LDI a, v and then PRN a emits (a, v), for every register, R7 among them. -/
def Obligations.LdiThenPrnEmitsTheImmediate : Prop :=
  ∀ (a v : Byte) (s : State), a.toNat < 8 →
    ∃ t u, exec (.ldi a v) s = .next t ∧ exec (.prn a) t = .next u ∧
      ∃ r : RegIdx, r.val = a.toNat ∧ u.out = s.out ++ [⟨r, v⟩]

/-- R112, R108, R110: PUSH a and then POP b, for registers other than R7, moves a to b and restores the stack pointer; with
R7 pushed the popped byte is the decremented pointer, with R7 popped the pointer is the pushed byte plus 1, and with R7 both
pushed and popped it is the decremented pointer plus 1, the old pointer. The wrap is decision D7 (log 3). -/
def Obligations.PushThenPopMovesTheRegister : Prop :=
  ∀ (opa opb : Byte) (s : State), ∃ t u, exec (.push opa) s = .next t ∧ exec (.pop opb) t = .next u ∧
    (ridx opa ≠ 7 → ridx opb ≠ 7 → u.reg (ridx opb) = s.reg (ridx opa) ∧ u.reg 7 = s.reg 7 ∧
      SameRegsExcept [ridx opb] s u) ∧
    (ridx opa = 7 → ridx opb ≠ 7 → u.reg (ridx opb) = s.reg 7 - 1 ∧ u.reg 7 = s.reg 7) ∧
    (ridx opa ≠ 7 → ridx opb = 7 → u.reg 7 = s.reg (ridx opa) + 1) ∧
    (ridx opa = 7 → ridx opb = 7 → u.reg 7 = s.reg 7)

/-- R129: after CMP a, b, JEQ jumps exactly if the registers were equal and otherwise falls through by 2, and JNE is its
negation. -/
def Obligations.CmpThenExactlyOneConditionalJumpIsTaken : Prop :=
  ∀ (opa opb opc' : Byte) (s : State), ∃ t u v, exec (.cmp opa opb) s = .next t ∧
    exec (.jeq opc') t = .next u ∧ exec (.jne opc') t = .next v ∧
    (s.reg (ridx opa) = s.reg (ridx opb) → u.pc = s.reg (ridx opc') ∧ PcAdvanced 2 t v) ∧
    (s.reg (ridx opa) ≠ s.reg (ridx opb) → PcAdvanced 2 t u ∧ v.pc = s.reg (ridx opc'))

/-- R40, R82, R167: a byte that PUSH stores where the next instruction starts is the opcode the very next step fetches, and
the PUSH itself runs as fetched even where it stores over its own bytes. -/
def Obligations.PushedByteIsFetchedByTheNextStep : Prop :=
  ∀ s : State, s.status = .running → s.memRead s.pc = opc .push →
    ∃ t, step s = .next t ∧ t.pc = s.pc + 2 ∧ t.status = .running ∧ t.reg 7 = s.reg 7 - 1 ∧
      t.memRead (s.reg 7 - 1) =
        (if ridx (s.memRead (s.pc + 1)) = 7 then s.reg 7 - 1 else s.reg (ridx (s.memRead (s.pc + 1)))) ∧
      (s.reg 7 - 1 = s.pc + 2 →
        (fetch t).ir =
          (if ridx (s.memRead (s.pc + 1)) = 7 then s.reg 7 - 1 else s.reg (ridx (s.memRead (s.pc + 1)))))

/-- R91, R126: a JMP whose register holds the JMP's own address leaves the state exactly as it is, and the run from it
never ends. -/
def Obligations.JumpToItselfRunsForever : Prop :=
  ∀ s : State, s.status = .running → s.memRead s.pc = opc .jmp →
    s.reg (ridx (s.memRead (s.pc + 1))) = s.pc → step s = .next s ∧ RunsForever s

/-- R90, R91: while the status is Running each round of the run loop performs one step of the machine; whatever the number
of rounds, the loop only takes steps; and once the status is no longer Running it changes nothing more. Its fuel, the number
of rounds, is the model's (log 19). -/
def Obligations.TheRunLoopStopsForGood : Prop :=
  (∀ s : State, runLoop 0 s = s) ∧
  (∀ (n : Nat) (s t : State), s.status = .running → step s = .next t → runLoop (n + 1) s = runLoop n t) ∧
  ∀ (n m : Nat) (s : State), Reaches s (runLoop n s) ∧
    ((runLoop n s).status ≠ .running → runLoop (n + m) s = runLoop n s)

/-- R91, R143: the end of a run is unique; so a run that faults never halts. -/
def Obligations.TheEndOfARunIsUnique : Prop :=
  (∀ s t u : State, Reaches s t → t.status ≠ .running → Reaches s u → u.status ≠ .running → t = u) ∧
  ∀ s t u : State, FaultsAt s t → ¬HaltsAt s u

/-- The model's own interface (log 12): the word placed by `withFetchWord` is what the next step fetches, and if the decoder
reads an instruction from it, that step is the instruction. -/
def Obligations.TheWordPlacedIsTheOneThatRuns : Prop :=
  ∀ (s : State) (nbits w : Nat), fetch (s.withFetchWord nbits w) =
      ⟨tableByte nbits w 0, tableByte nbits w 1, tableByte nbits w 2⟩ ∧
    ∀ i, decodeTableWord nbits w = some i → step (s.withFetchWord nbits w) = exec i (s.withFetchWord nbits w)
end

