-- ==== Sys2Proof/Laws/Decode.lean ====
section
/-! SUPPORT. The opcode map and the decoder: what they can answer. -/

namespace Sys2Proof

theorem lookupOpcode_opc (o : Opcode) : lookupOpcode (opc o) = some o := by
  cases o <;> decide

/-- The lookup finds an opcode exactly at that opcode's byte. -/
theorem lookupOpcode_eq_some {ir : Byte} {o : Opcode} : lookupOpcode ir = some o ↔ ir = opc o := by
  constructor
  · intro h
    have := List.find?_some h
    simpa using (beq_iff_eq.mp this).symm
  · rintro rfl
    exact lookupOpcode_opc o

theorem opc_injective {o p : Opcode} (h : opc o = opc p) : o = p := by
  have := lookupOpcode_opc o
  rw [h, lookupOpcode_opc p] at this
  exact (Option.some.inj this).symm

/-- The decoder refuses exactly a byte that the lookup does not find, and names that byte. -/
theorem decode_error {ir opa opb : Byte} {e : DecodeError} :
    decode ir opa opb = .error e ↔ lookupOpcode ir = none ∧ e = .unknownOpcode ir := by
  unfold decode
  rcases h : lookupOpcode ir with _ | o
  · simp [eq_comm]
  · cases o <;> simp

/-- A decoded instruction's opcode is the byte it was decoded from. -/
theorem opc_op_of_decode {ir opa opb : Byte} {i : Instr} (h : decode ir opa opb = .ok i) : opc i.op = ir := by
  unfold decode at h
  rcases hl : lookupOpcode ir with _ | o
  · simp [hl] at h
  · rw [lookupOpcode_eq_some] at hl
    subst hl
    rw [lookupOpcode_opc] at h
    cases o <;> (cases h; rfl)

end Sys2Proof
end

