-- ==== Sys2Proof/Laws/Memory.lean ====
section
/-! SUPPORT. The laws of memory: read after write, the canonical form, and that canonical memories which read the same are
the same data. -/

namespace Sys2Proof.Machine

@[simp] theorem Memory.read_nil (k : Nat) : Memory.read [] k = Memory.unlisted := rfl

theorem Memory.read_cons (c : Host.Cell) (m : Memory) (k : Nat) :
    Memory.read (c :: m) k = if c.1 = k then c.2 else Memory.read m k := rfl

/-- An address that no entry names reads as unlisted. -/
theorem Memory.read_eq_unlisted {m : Memory} {k : Nat} (h : ∀ c ∈ m, c.1 ≠ k) : Memory.read m k = Memory.unlisted := by
  induction m with
  | nil => rfl
  | cons c m ih =>
    rw [Memory.read_cons, if_neg (h c (by simp))]
    exact ih fun d hd => h d (by simp [hd])

theorem Memory.mem_insert {c d : Host.Cell} {m : Memory} : d ∈ Memory.insert c m ↔ d = c ∨ d ∈ m := by
  induction m with
  | nil => simp [Memory.insert]
  | cons e m ih =>
    unfold Memory.insert
    split
    · simp
    · simp only [List.mem_cons, ih]
      tauto

theorem Memory.read_insert {c : Host.Cell} {m : Memory} (h : ∀ d ∈ m, d.1 ≠ c.1) (k : Nat) :
    Memory.read (Memory.insert c m) k = if c.1 = k then c.2 else Memory.read m k := by
  induction m with
  | nil => rfl
  | cons d m ih =>
    unfold Memory.insert
    split
    · rfl
    · have hd : d.1 ≠ c.1 := h d (by simp)
      rw [Memory.read_cons, Memory.read_cons, ih fun e he => h e (by simp [he])]
      by_cases hk : d.1 = k
      · simp [hk, show c.1 ≠ k by omega]
      · simp [hk]

theorem Memory.read_filter (m : Memory) (k j : Nat) :
    Memory.read (m.filter (fun c => c.1 ≠ k)) j = if j = k then Memory.unlisted else Memory.read m j := by
  induction m with
  | nil => simp
  | cons c m ih =>
    by_cases hc : c.1 = k
    · rw [List.filter_cons_of_neg (by simpa using hc), ih, Memory.read_cons]
      by_cases hj : j = k
      · simp [hj]
      · simp [hj, show c.1 ≠ j by omega]
    · rw [List.filter_cons_of_pos (by simpa using hc), Memory.read_cons, Memory.read_cons, ih]
      by_cases hj : j = k
      · simp [hj, hc]
      · simp [hj]

/-- Read after write, at every address and in every memory. -/
theorem Memory.read_write (m : Memory) (k j : Nat) (v : Byte) :
    Memory.read (Memory.write m k v) j = if j = k then v else Memory.read m j := by
  unfold Memory.write
  by_cases hv : v = Memory.unlisted
  · simp only [hv, if_true]
    exact Memory.read_filter m k j
  · simp only [hv, if_false]
    rw [Memory.read_insert (by simp), Memory.read_filter]
    by_cases hj : j = k
    · simp [hj]
    · simp [hj, Ne.symm hj]

theorem Memory.pairwise_insert {c : Host.Cell} {m : Memory} (hm : m.Pairwise (fun c d => c.1 < d.1))
    (h : ∀ d ∈ m, d.1 ≠ c.1) : (Memory.insert c m).Pairwise (fun c d => c.1 < d.1) := by
  induction m with
  | nil => simp [Memory.insert]
  | cons d m ih =>
    obtain ⟨hd, hm'⟩ := List.pairwise_cons.mp hm
    unfold Memory.insert
    split
    · rename_i hlt
      refine List.pairwise_cons.mpr ⟨fun e he => ?_, hm⟩
      rcases List.mem_cons.mp he with rfl | he
      · exact hlt
      · exact Nat.lt_trans hlt (hd e he)
    · rename_i hlt
      have hne : d.1 ≠ c.1 := h d (by simp)
      refine List.pairwise_cons.mpr ⟨fun e he => ?_, ih hm' fun e he => h e (by simp [he])⟩
      rcases Memory.mem_insert.mp he with rfl | he
      · omega
      · exact hd e he

/-- A write keeps the canonical form. -/
theorem Memory.wf_write {m : Memory} (h : Memory.wf m) {k : Nat} (hk : k < Config.memSize) (v : Byte) :
    Memory.wf (Memory.write m k v) := by
  obtain ⟨hp, hc⟩ := h
  have hp' : (m.filter (fun c => c.1 ≠ k)).Pairwise (fun c d => c.1 < d.1) := hp.filter _
  have hc' : ∀ c ∈ m.filter (fun c => c.1 ≠ k), c.1 < Config.memSize ∧ c.2 ≠ Memory.unlisted :=
    fun c hm => hc c (List.mem_filter.mp hm).1
  unfold Memory.write
  by_cases hv : v = Memory.unlisted
  · simp only [hv, if_true]
    exact ⟨hp', hc'⟩
  · simp only [hv, if_false]
    refine ⟨Memory.pairwise_insert hp' (by simp), fun d hd => ?_⟩
    rcases Memory.mem_insert.mp hd with rfl | hd
    · exact ⟨hk, hv⟩
    · exact hc' d hd

end Sys2Proof.Machine
end

