-- ==== Sys2Proof/Laws/State.lean ====
section
/-! SUPPORT. What each update of the state leaves in each field, so that no later proof unfolds a record update. -/

namespace Sys2Proof.Machine

variable (s : State) (r q : RegIdx) (v w addr : Byte) (st : Status) (c : Cause)

/-! `setReg` -/
@[simp] theorem State.reg_setReg : (s.setReg r v).reg q = if q = r then v else s.reg q := by
  simp only [State.reg, State.setReg]
  by_cases h : q = r
  · subst h; simp
  · have hv : r.val ≠ q.val := fun e => h (Fin.ext e.symm)
    simp [h, Vector.getElem_set_ne _ _ hv]

@[simp] theorem State.setReg_pc : (s.setReg r v).pc = s.pc := rfl
@[simp] theorem State.setReg_fl : (s.setReg r v).fl = s.fl := rfl
@[simp] theorem State.setReg_status : (s.setReg r v).status = s.status := rfl
@[simp] theorem State.setReg_fault : (s.setReg r v).fault = s.fault := rfl
@[simp] theorem State.setReg_mem : (s.setReg r v).mem = s.mem := rfl
@[simp] theorem State.setReg_out : (s.setReg r v).out = s.out := rfl
@[simp] theorem State.setReg_memRead : (s.setReg r v).memRead addr = s.memRead addr := rfl

/-- Register files that read the same are the same. -/
theorem State.regs_ext {s t : State} (h : ∀ r, s.reg r = t.reg r) : s.regs = t.regs :=
  Vector.ext fun i hi => h ⟨i, hi⟩

/-! `setPc` -/
@[simp] theorem State.setPc_regs : (s.setPc v).regs = s.regs := rfl
@[simp] theorem State.setPc_reg : (s.setPc v).reg r = s.reg r := rfl
@[simp] theorem State.setPc_pc : (s.setPc v).pc = v := rfl
@[simp] theorem State.setPc_fl : (s.setPc v).fl = s.fl := rfl
@[simp] theorem State.setPc_status : (s.setPc v).status = s.status := rfl
@[simp] theorem State.setPc_fault : (s.setPc v).fault = s.fault := rfl
@[simp] theorem State.setPc_mem : (s.setPc v).mem = s.mem := rfl
@[simp] theorem State.setPc_out : (s.setPc v).out = s.out := rfl
@[simp] theorem State.setPc_memRead : (s.setPc v).memRead addr = s.memRead addr := rfl

/-! `setFl` -/
@[simp] theorem State.setFl_regs : (s.setFl v).regs = s.regs := rfl
@[simp] theorem State.setFl_reg : (s.setFl v).reg r = s.reg r := rfl
@[simp] theorem State.setFl_pc : (s.setFl v).pc = s.pc := rfl
@[simp] theorem State.setFl_fl : (s.setFl v).fl = v := rfl
@[simp] theorem State.setFl_status : (s.setFl v).status = s.status := rfl
@[simp] theorem State.setFl_fault : (s.setFl v).fault = s.fault := rfl
@[simp] theorem State.setFl_mem : (s.setFl v).mem = s.mem := rfl
@[simp] theorem State.setFl_out : (s.setFl v).out = s.out := rfl
@[simp] theorem State.setFl_memRead : (s.setFl v).memRead addr = s.memRead addr := rfl

/-! `setStatus` -/
@[simp] theorem State.setStatus_regs : (s.setStatus st).regs = s.regs := rfl
@[simp] theorem State.setStatus_reg : (s.setStatus st).reg r = s.reg r := rfl
@[simp] theorem State.setStatus_pc : (s.setStatus st).pc = s.pc := rfl
@[simp] theorem State.setStatus_fl : (s.setStatus st).fl = s.fl := rfl
@[simp] theorem State.setStatus_status : (s.setStatus st).status = st := rfl
@[simp] theorem State.setStatus_fault : (s.setStatus st).fault = s.fault := rfl
@[simp] theorem State.setStatus_mem : (s.setStatus st).mem = s.mem := rfl
@[simp] theorem State.setStatus_out : (s.setStatus st).out = s.out := rfl
@[simp] theorem State.setStatus_memRead : (s.setStatus st).memRead addr = s.memRead addr := rfl

/-! `output` -/
@[simp] theorem State.output_regs : (s.output r v).regs = s.regs := rfl
@[simp] theorem State.output_reg : (s.output r v).reg q = s.reg q := rfl
@[simp] theorem State.output_pc : (s.output r v).pc = s.pc := rfl
@[simp] theorem State.output_fl : (s.output r v).fl = s.fl := rfl
@[simp] theorem State.output_status : (s.output r v).status = s.status := rfl
@[simp] theorem State.output_fault : (s.output r v).fault = s.fault := rfl
@[simp] theorem State.output_mem : (s.output r v).mem = s.mem := rfl
@[simp] theorem State.output_out : (s.output r v).out = s.out ++ [⟨r, v⟩] := rfl
@[simp] theorem State.output_memRead : (s.output r v).memRead addr = s.memRead addr := rfl

/-! `memWrite` -/
@[simp] theorem State.memWrite_regs : (s.memWrite v w).regs = s.regs := rfl
@[simp] theorem State.memWrite_reg : (s.memWrite v w).reg r = s.reg r := rfl
@[simp] theorem State.memWrite_pc : (s.memWrite v w).pc = s.pc := rfl
@[simp] theorem State.memWrite_fl : (s.memWrite v w).fl = s.fl := rfl
@[simp] theorem State.memWrite_status : (s.memWrite v w).status = s.status := rfl
@[simp] theorem State.memWrite_fault : (s.memWrite v w).fault = s.fault := rfl
@[simp] theorem State.memWrite_out : (s.memWrite v w).out = s.out := rfl

@[simp] theorem State.memRead_memWrite :
    (s.memWrite v w).memRead addr = if addr = v then w else s.memRead addr := by
  simp only [State.memRead, State.memWrite, Memory.read_write, BitVec.toNat_inj]

theorem State.memWrite_wf (h : Memory.wf s.mem) : Memory.wf (s.memWrite v w).mem :=
  Memory.wf_write h v.isLt w

/-! `raise` -/
@[simp] theorem raise_regs : (raise c v w s).regs = s.regs := rfl
@[simp] theorem raise_reg : (raise c v w s).reg r = s.reg r := rfl
@[simp] theorem raise_pc : (raise c v w s).pc = s.pc := rfl
@[simp] theorem raise_fl : (raise c v w s).fl = s.fl := rfl
@[simp] theorem raise_status : (raise c v w s).status = .faulted := rfl
@[simp] theorem raise_fault : (raise c v w s).fault = some ⟨c, v, w⟩ := rfl
@[simp] theorem raise_mem : (raise c v w s).mem = s.mem := rfl
@[simp] theorem raise_out : (raise c v w s).out = s.out := rfl
@[simp] theorem raise_memRead : (raise c v w s).memRead addr = s.memRead addr := rfl

end Sys2Proof.Machine
end

