-- ==== Sys2Proof/Laws/Ops.lean ====
section
/-! SUPPORT. One lemma per shared operation that says everything it can do; proofs cite these and do not unfold the
operation. -/

namespace Sys2Proof.Machine

variable (o : Opcode) (v pc0 addr : Byte) (s : State) (r a b : RegIdx)

/-! The PC update changes `pc` alone. -/
@[simp] theorem pcUpdate_regs : (pcUpdate o pc0 s).regs = s.regs := by unfold pcUpdate; split <;> rfl
@[simp] theorem pcUpdate_reg : (pcUpdate o pc0 s).reg r = s.reg r := by unfold pcUpdate; split <;> rfl
@[simp] theorem pcUpdate_fl : (pcUpdate o pc0 s).fl = s.fl := by unfold pcUpdate; split <;> rfl
@[simp] theorem pcUpdate_status : (pcUpdate o pc0 s).status = s.status := by unfold pcUpdate; split <;> rfl
@[simp] theorem pcUpdate_fault : (pcUpdate o pc0 s).fault = s.fault := by unfold pcUpdate; split <;> rfl
@[simp] theorem pcUpdate_mem : (pcUpdate o pc0 s).mem = s.mem := by unfold pcUpdate; split <;> rfl
@[simp] theorem pcUpdate_out : (pcUpdate o pc0 s).out = s.out := by unfold pcUpdate; split <;> rfl
@[simp] theorem pcUpdate_memRead : (pcUpdate o pc0 s).memRead addr = s.memRead addr := by
  unfold pcUpdate; split <;> rfl

/-- What the PC update leaves in `pc`. -/
theorem pcUpdate_pc : (pcUpdate o pc0 s).pc =
    if setsPc (opc o) then s.pc else pc0 + 1 + (operandCount (opc o)).setWidth 8 := by
  unfold pcUpdate; split <;> rfl

theorem pcUpdate_pc_of_setsPc (h : setsPc (opc o) = true) : (pcUpdate o pc0 s).pc = s.pc := by
  rw [pcUpdate_pc, if_pos h]

/-- Where the opcode does not set `pc`, the advance is the instruction's length `n`. -/
theorem pcUpdate_pc_of_length {n : Nat} (h : setsPc (opc o) = false) (hn : instrLength (opc o) = some n) :
    (pcUpdate o pc0 s).pc = pc0 + BitVec.ofNat 8 n := by
  rw [pcUpdate_pc, if_neg (by simp [h]), BitVec.add_assoc]
  congr 1
  revert hn h
  cases o <;> simp +decide [instrLength] <;> rintro rfl <;> decide

/-! Where each instruction leaves `pc` (R87). -/
@[simp] theorem pcUpdate_pc_hlt : (pcUpdate .hlt pc0 s).pc = pc0 + 1 :=
  pcUpdate_pc_of_length _ _ _ (by decide) (n := 1) (by decide)
@[simp] theorem pcUpdate_pc_ldi : (pcUpdate .ldi pc0 s).pc = pc0 + 3 :=
  pcUpdate_pc_of_length _ _ _ (by decide) (n := 3) (by decide)
@[simp] theorem pcUpdate_pc_prn : (pcUpdate .prn pc0 s).pc = pc0 + 2 :=
  pcUpdate_pc_of_length _ _ _ (by decide) (n := 2) (by decide)
@[simp] theorem pcUpdate_pc_mul : (pcUpdate .mul pc0 s).pc = pc0 + 3 :=
  pcUpdate_pc_of_length _ _ _ (by decide) (n := 3) (by decide)
@[simp] theorem pcUpdate_pc_add : (pcUpdate .add pc0 s).pc = pc0 + 3 :=
  pcUpdate_pc_of_length _ _ _ (by decide) (n := 3) (by decide)
@[simp] theorem pcUpdate_pc_push : (pcUpdate .push pc0 s).pc = pc0 + 2 :=
  pcUpdate_pc_of_length _ _ _ (by decide) (n := 2) (by decide)
@[simp] theorem pcUpdate_pc_pop : (pcUpdate .pop pc0 s).pc = pc0 + 2 :=
  pcUpdate_pc_of_length _ _ _ (by decide) (n := 2) (by decide)
@[simp] theorem pcUpdate_pc_cmp : (pcUpdate .cmp pc0 s).pc = pc0 + 3 :=
  pcUpdate_pc_of_length _ _ _ (by decide) (n := 3) (by decide)
@[simp] theorem pcUpdate_pc_or : (pcUpdate .or pc0 s).pc = pc0 + 3 :=
  pcUpdate_pc_of_length _ _ _ (by decide) (n := 3) (by decide)
@[simp] theorem pcUpdate_pc_jmp : (pcUpdate .jmp pc0 s).pc = s.pc := pcUpdate_pc_of_setsPc _ _ _ (by decide)
@[simp] theorem pcUpdate_pc_jeq : (pcUpdate .jeq pc0 s).pc = s.pc := pcUpdate_pc_of_setsPc _ _ _ (by decide)
@[simp] theorem pcUpdate_pc_jne : (pcUpdate .jne pc0 s).pc = s.pc := pcUpdate_pc_of_setsPc _ _ _ (by decide)

/-- An ALU operation other than CMP writes `x[a]` and nothing else; CMP writes `fl` and nothing else. -/
theorem aluApply_cases (op : AluOp) :
    (op ≠ .cmp ∧ ∃ v, aluApply op a b s = s.setReg a v) ∨ (op = .cmp ∧ ∃ v, aluApply op a b s = s.setFl v) := by
  cases op <;> simp [aluApply]

/-- CMP leaves one of three values. -/
theorem compareFlags_cases (va vb : Byte) :
    (va = vb ∧ compareFlags va vb = flagsEqual) ∨ (vb < va ∧ compareFlags va vb = flagsGreater) ∨
      (va < vb ∧ compareFlags va vb = flagsLess) := by
  unfold compareFlags
  split
  · exact .inl ⟨‹_›, rfl⟩
  · split
    · exact .inr (.inl ⟨‹_›, rfl⟩)
    · exact .inr (.inr ⟨by bv_omega, rfl⟩)

/-! PUSH's handler: the pointer, the stored cell, and nothing else. -/
@[simp] theorem pushReg_reg : (pushReg a s).reg r = if r = Config.sp then s.reg Config.sp - 1 else s.reg r := by
  simp [pushReg]
@[simp] theorem pushReg_memRead : (pushReg a s).memRead addr =
    if addr = s.reg Config.sp - 1 then (if a = Config.sp then s.reg Config.sp - 1 else s.reg a)
    else s.memRead addr := by
  simp [pushReg]
@[simp] theorem pushReg_pc : (pushReg a s).pc = s.pc := rfl
@[simp] theorem pushReg_fl : (pushReg a s).fl = s.fl := rfl
@[simp] theorem pushReg_status : (pushReg a s).status = s.status := rfl
@[simp] theorem pushReg_fault : (pushReg a s).fault = s.fault := rfl
@[simp] theorem pushReg_out : (pushReg a s).out = s.out := rfl
theorem pushReg_wf (h : Memory.wf s.mem) : Memory.wf (pushReg a s).mem := State.memWrite_wf _ _ _ h

/-! POP's handler: the loaded register, then the pointer, and nothing else. -/
@[simp] theorem popReg_reg : (popReg a s).reg r =
    if r = Config.sp then (if a = Config.sp then s.memRead (s.reg Config.sp) + 1 else s.reg Config.sp + 1)
    else if r = a then s.memRead (s.reg Config.sp) else s.reg r := by
  simp only [popReg, State.reg_setReg]
  by_cases ha : a = Config.sp
  · simp [ha]
  · simp [ha, Ne.symm ha]
@[simp] theorem popReg_mem : (popReg a s).mem = s.mem := rfl
@[simp] theorem popReg_memRead : (popReg a s).memRead addr = s.memRead addr := rfl
@[simp] theorem popReg_pc : (popReg a s).pc = s.pc := rfl
@[simp] theorem popReg_fl : (popReg a s).fl = s.fl := rfl
@[simp] theorem popReg_status : (popReg a s).status = s.status := rfl
@[simp] theorem popReg_fault : (popReg a s).fault = s.fault := rfl
@[simp] theorem popReg_out : (popReg a s).out = s.out := rfl

/-- A jump's handler writes `pc` alone, the target or the fall-through. -/
theorem jumpIf_eq (taken : Bool) (opa : Byte) :
    jumpIf taken opa s = s.setPc (if taken then s.reg (ridx opa) else s.pc + 2) := by
  cases taken <;> rfl

/-- The bits of the flags register that CMP writes. -/
theorem flagE_setFl : (s.setFl v).flagE = v.getLsbD 0 := rfl

/-- The register a byte selects is its value modulo 8. -/
theorem ridx_val (x : Byte) : (ridx x).val = x.toNat % 8 := by
  simp [ridx, BitVec.extractLsb'_toNat]

/-- A register byte in 0 to 7 selects the register of that number. -/
theorem ridx_val_of_ok {x : Byte} (h : regByteOk x = true) : (ridx x).val = x.toNat := by
  rw [ridx_val]
  exact Nat.mod_eq_of_lt (by simpa [regByteOk] using h)

/-- What the cells read as after an image is loaded from cell `i` upward. -/
theorem read_loadFrom (image : List Byte) (i k : Nat) (m : Memory) :
    Memory.read (loadFrom i image m) k =
      if i ≤ k ∧ k < i + image.length then image.getD (k - i) 0 else Memory.read m k := by
  induction image generalizing i m with
  | nil => simp [loadFrom]
  | cons v image ih =>
    rw [loadFrom, ih, Memory.read_write]
    by_cases hk : k = i
    · subst hk; simp
    · by_cases h : i + 1 ≤ k ∧ k < i + 1 + image.length
      · have : k - i = (k - (i + 1)) + 1 := by omega
        have h2 : i ≤ k ∧ k < i + (v :: image).length := by simp only [List.length_cons]; omega
        rw [if_pos h, if_pos h2, this]
        rfl
      · have h2 : ¬(i ≤ k ∧ k < i + (v :: image).length) := by simp only [List.length_cons]; omega
        rw [if_neg h, if_neg h2, if_neg hk]

theorem loadFrom_wf (image : List Byte) {i : Nat} {m : Memory} (h : Memory.wf m)
    (hi : i + image.length ≤ Config.memSize) : Memory.wf (loadFrom i image m) := by
  induction image generalizing i m with
  | nil => exact h
  | cons v image ih =>
    simp only [List.length_cons] at hi
    exact ih (Memory.wf_write h (by omega) v) (by omega)

end Sys2Proof.Machine
end

