-- ==== Sys2Proof/Laws/PerInstr.lean ====
section
/-! SUPPORT. Statements about every instruction as syntax, one lemma per constructor. -/

namespace Sys2Proof.Laws.EncodedLength

/-- An instruction's encoding begins with its registered opcode and is as long as that opcode's operand count says: the
length is `1 + ir[7:6]` (R50). -/
def Statement (i : Instr) : Prop :=
  (encode i).head? = some (opc i.op) ∧ instrLength (opc i.op) = some (encode i).length

theorem hlt : Statement .hlt := ⟨rfl, (by decide : instrLength (opc .hlt) = some 1)⟩
theorem ldi (opa imm : Byte) : Statement (.ldi opa imm) := ⟨rfl, (by decide : instrLength (opc .ldi) = some 3)⟩
theorem prn (opa : Byte) : Statement (.prn opa) := ⟨rfl, (by decide : instrLength (opc .prn) = some 2)⟩
theorem mul (opa opb : Byte) : Statement (.mul opa opb) := ⟨rfl, (by decide : instrLength (opc .mul) = some 3)⟩
theorem add (opa opb : Byte) : Statement (.add opa opb) := ⟨rfl, (by decide : instrLength (opc .add) = some 3)⟩
theorem push (opa : Byte) : Statement (.push opa) := ⟨rfl, (by decide : instrLength (opc .push) = some 2)⟩
theorem pop (opa : Byte) : Statement (.pop opa) := ⟨rfl, (by decide : instrLength (opc .pop) = some 2)⟩
theorem cmp (opa opb : Byte) : Statement (.cmp opa opb) := ⟨rfl, (by decide : instrLength (opc .cmp) = some 3)⟩
theorem jmp (opa : Byte) : Statement (.jmp opa) := ⟨rfl, (by decide : instrLength (opc .jmp) = some 2)⟩
theorem jeq (opa : Byte) : Statement (.jeq opa) := ⟨rfl, (by decide : instrLength (opc .jeq) = some 2)⟩
theorem jne (opa : Byte) : Statement (.jne opa) := ⟨rfl, (by decide : instrLength (opc .jne) = some 2)⟩
theorem or (opa opb : Byte) : Statement (.or opa opb) := ⟨rfl, (by decide : instrLength (opc .or) = some 3)⟩

end Sys2Proof.Laws.EncodedLength
end

