-- ==== Sys2Proof/Laws/Step.lean ====
section
/-! SUPPORT. What an instruction and a step can do, said once: the state each meaning answers, and the inversion of a
step. -/

namespace Sys2Proof.Machine

/-- The handler of an instruction, without the PC update that follows it (R84). -/
def handled : Instr → State → State
  | .hlt, s => s.setStatus .halted
  | .ldi opa imm, s => s.setReg (ridx opa) imm
  | .prn opa, s => s.output (ridx opa) (s.reg (ridx opa))
  | .mul opa opb, s => aluApply .mul (ridx opa) (ridx opb) s
  | .add opa opb, s => aluApply .add (ridx opa) (ridx opb) s
  | .push opa, s => pushReg (ridx opa) s
  | .pop opa, s => popReg (ridx opa) s
  | .cmp opa opb, s => s.setFl (compareFlags (s.reg (ridx opa)) (s.reg (ridx opb)))
  | .jmp opa, s => s.setPc (s.reg (ridx opa))
  | .jeq opa, s => jumpIf s.flagE opa s
  | .jne opa, s => jumpIf (!s.flagE) opa s
  | .or opa opb, s => aluApply .or (ridx opa) (ridx opb) s

/-- Every instruction runs its handler and then the PC update. -/
theorem exec_eq_handled (i : Instr) (s : State) : exec i s = .next (pcUpdate i.op s.pc (handled i s)) := by
  cases i <;> rfl

/-- Inversion of a step: it starts Running, and either the decoded instruction answers, or the byte at `pc` is
unregistered and the step enters the fatal condition. -/
theorem step_cases {s t : State} (h : step s = .next t) :
    s.status = .running ∧
      ((∃ i, decode (fetch s).ir (fetch s).opa (fetch s).opb = .ok i ∧ exec i s = .next t) ∨
        (lookupOpcode (fetch s).ir = none ∧ t = raise .unknownOpcode s.pc (fetch s).ir s)) := by
  unfold step at h
  rcases hs : s.status with _ | _ | _
  · refine ⟨rfl, ?_⟩
    simp only [hs, noStep] at h
    rcases hd : decode (fetch s).ir (fetch s).opa (fetch s).opb with e | i
    · rw [hd] at h
      exact .inr ⟨(decode_error.mp hd).1, by simpa [unknownOpcodeStep] using h.symm⟩
    · rw [hd] at h
      exact .inl ⟨i, rfl, h⟩
  · simp [hs, noStep] at h
  · simp [hs, noStep] at h

end Sys2Proof.Machine
end

