-- ==== Sys2Proof/Tests/Slice0.lean ====
section
/-! SUPPORT. Tests. Expected results are those of spec/95_test_vectors.md and of the instruction rules' own examples; the
opcode bytes are written out bit by bit from R57 and the encoding lines of the rules. -/

namespace Sys2Proof.Tests

open Sys2Proof.Machine Sys2Proof.Safety

/-- A Running state with `image` in the cells from `pc` upward. -/
def at' (pc fl : Byte) (regs : Vector Byte 8) (image : List Byte) : State :=
  { State.reset with pc := pc, fl := fl, regs := regs, mem := loadFrom pc.toNat image [] }

/-- The launch state of an image. -/
def launched (image : List Byte) : State := { State.reset with mem := loadFrom 0 image [] }

/-- What a step leaves, seen through `f`. -/
def after {α : Type} (s : State) (f : State → α) : Option α :=
  match step s with
  | .next t => some (f t)
  | .fault _ => none
  | .refused _ => none

/-- What a decoder's answer is. -/
def decoded (ir opa opb : Byte) : Option Instr := (decode ir opa opb).toOption

/-! ### Well-formedness: one ill-formed term for each check -/

theorem test_wellFormed_refuses_first_operand :
    (∀ i ∈ [Instr.ldi 8 0, .prn 8, .mul 8 0, .add 8 0, .push 8, .pop 8, .cmp 8 0, .jmp 8, .jeq 8, .jne 255, .or 8 0],
      i.wellFormed = false) := by decide

theorem test_wellFormed_refuses_second_operand :
    (∀ i ∈ [Instr.mul 0 8, .add 0 8, .cmp 0 255, .or 0 8], i.wellFormed = false) := by decide

theorem test_wellFormed_accepts :
    (∀ i ∈ [Instr.hlt, .ldi 7 255, .prn 0, .mul 7 7, .add 0 7, .push 7, .pop 7, .cmp 7 0, .jmp 7, .jeq 0, .jne 1, .or 7 7],
      i.wellFormed = true) := by decide

/-! ### Decoding: every constructor, from the encoding written out -/

theorem test_decode_hlt : decoded 0b00000001 0b11111111 0b11111111 = some .hlt := by decide
theorem test_decode_ldi : decoded 0b10000010 0b00000011 0b11001000 = some (.ldi 3 200) := by decide
theorem test_decode_prn : decoded 0b01000111 0b00000101 0b00000001 = some (.prn 5) := by decide
theorem test_decode_mul : decoded 0b10100010 0b00000010 0b00000001 = some (.mul 2 1) := by decide
theorem test_decode_add : decoded 0b10100000 0b00000111 0b00000001 = some (.add 7 1) := by decide
theorem test_decode_push : decoded 0b01000101 0b00000111 0b00000000 = some (.push 7) := by decide
theorem test_decode_pop : decoded 0b01000110 0b00000010 0b00000000 = some (.pop 2) := by decide
theorem test_decode_cmp : decoded 0b10100111 0b00000001 0b00000011 = some (.cmp 1 3) := by decide
theorem test_decode_jmp : decoded 0b01010100 0b00000010 0b00000000 = some (.jmp 2) := by decide
theorem test_decode_jeq : decoded 0b01010101 0b00000011 0b00000000 = some (.jeq 3) := by decide
theorem test_decode_jne : decoded 0b01010110 0b00000101 0b00000000 = some (.jne 5) := by decide
theorem test_decode_or : decoded 0b10101010 0b00000100 0b00000001 = some (.or 4 1) := by decide

/-- The forms and their bytes, the table of R63. -/
theorem test_encode : encode .hlt = [0x01] ∧ encode (.ldi 3 200) = [0x82, 3, 200] ∧ encode (.prn 5) = [0x47, 5] ∧
    encode (.mul 2 1) = [0xA2, 2, 1] ∧ encode (.add 7 1) = [0xA0, 7, 1] ∧ encode (.push 7) = [0x45, 7] ∧
    encode (.pop 2) = [0x46, 2] ∧ encode (.cmp 1 3) = [0xA7, 1, 3] ∧ encode (.jmp 2) = [0x54, 2] ∧
    encode (.jeq 3) = [0x55, 3] ∧ encode (.jne 5) = [0x56, 5] ∧ encode (.or 4 1) = [0xAA, 4, 1] := by decide

/-- The bytes V41-7 names as unregistered. -/
theorem test_decode_refuses :
    (∀ ir ∈ [0x00, 0x02, 0x11, 0x50, 0x65, 0x83, 0x84, 0xA1, 0xA8, 0xAB, 0xC0, 0xFF],
      decoded ir 0 0 = none) := by decide

/-- LDI R0,8 as one number of 24 bits, the opcode byte lowest. -/
theorem test_decodeTableWord_ldi : decodeTableWord 24 0x080082 = some (.ldi 0 8) := by decide
/-- The table's 8 bits of HLT, nothing above them. -/
theorem test_decodeTableWord_hlt : decodeTableWord 8 0xFFFF01 = some .hlt := by decide

/-- The first instruction after reset (R100: HLT halts and leaves `pc` = 1). -/
theorem test_withFetchWord_hlt :
    after (State.reset.withFetchWord 8 0x01) (fun t => (t.status, t.pc)) = some (.halted, 1) := by decide

/-! ### One step of each instruction -/

/-- V42-1. -/
theorem test_hlt : after (at' 0x0B 0 State.reset.regs [0x01]) (fun t => (t.status, t.pc, t.regs)) =
    some (.halted, 0x0C, State.reset.regs) := by decide
/-- V41-4: HLT at the top of memory. -/
theorem test_hlt_wraps : after (at' 0xFF 0 State.reset.regs [0x01]) (fun t => (t.status, t.pc)) =
    some (.halted, 0x00) := by decide
/-- V42-2. -/
theorem test_prn : after (at' 9 0 #v[0x48, 0, 0, 0, 0, 0, 0, 0xF4] [0x47, 0x00]) (fun t => (t.out, t.pc)) =
    some ([⟨0, 72⟩], 0x0B) := by decide
/-- V42-4: an operand byte above 7. -/
theorem test_prn_masked : after (at' 6 0 #v[0x0B, 0, 0, 0, 0, 0, 0, 0x07] [0x47, 0x0F, 0x01]) (fun t => t.out) =
    some [⟨7, 7⟩] := by decide
/-- The text lines of V42-2 (R102). -/
theorem test_prn_line : OutputPair.line ⟨0, 72⟩ = "REGISTER: 0, VALUE: 72" ∧
    OutputPair.line ⟨7, 244⟩ = "REGISTER: 7, VALUE: 244" ∧ OutputPair.line ⟨3, 0⟩ = "REGISTER: 3, VALUE: 0" := by decide
/-- V43-1. -/
theorem test_ldi : after (at' 0 0 State.reset.regs [0x82, 0x07, 0x80]) (fun t => (t.reg 7, t.pc)) =
    some (0x80, 0x03) := by decide
/-- V41-5: an instruction across the top of memory. -/
theorem test_ldi_straddles : after { at' 0xFE 0 State.reset.regs [0x82, 0x02] with mem := [(0, 0x82), (0xFE, 0x82), (0xFF, 0x02)] }
    (fun t => (t.reg 2, t.pc)) = some (0x82, 0x01) := by decide
/-- V44-1. -/
theorem test_mul : after (at' 6 0 #v[8, 9, 0, 0, 0, 0, 0, 0xF4] [0xA2, 0, 1]) (fun t => (t.reg 0, t.reg 1, t.pc)) =
    some (72, 9, 9) := by decide
/-- V44-1: the square of 16 wraps to 0. -/
theorem test_mul_square : after (at' 0 0 #v[0, 0, 0x10, 0, 0, 0, 0, 0xF4] [0xA2, 2, 2]) (fun t => t.reg 2) =
    some 0 := by decide
/-- V44-2. -/
theorem test_add : after (at' 0 1 #v[0xFF, 2, 0, 0, 0, 0, 0, 0xF4] [0xA0, 0, 1]) (fun t => (t.reg 0, t.reg 1, t.fl)) =
    some (1, 2, 1) := by decide
/-- V44-2: the stack pointer as an ordinary register. -/
theorem test_add_sp : after (at' 0 0 #v[0, 2, 0, 0, 0, 0, 0, 0xF4] [0xA0, 7, 1]) (fun t => t.reg 7) =
    some 0xF6 := by decide
/-- V43-6: PUSH R7 stores the decremented pointer. -/
theorem test_push_sp : after (at' 0 0 State.reset.regs [0x45, 7]) (fun t => (t.reg 7, t.memRead 0xF3, t.pc)) =
    some (0xF3, 0xF3, 2) := by decide
/-- V43-8: the pointer wraps below 0. -/
theorem test_push_wraps : after (at' 6 0 #v[0xAB, 0, 0, 0, 0, 0, 0, 0] [0x45, 0]) (fun t => (t.reg 7, t.memRead 0xFF)) =
    some (0xFF, 0xAB) := by decide
/-- V43-3. -/
theorem test_pop : after { at' 10 0 #v[0, 0, 0, 0, 0, 0, 0, 0xF2] [0x46, 2] with mem := [(10, 0x46), (11, 2), (0xF2, 7)] }
    (fun t => (t.reg 2, t.reg 7, t.memRead 0xF2, t.pc)) = some (7, 0xF3, 7, 12) := by decide
/-- V43-7: POP R7 ends with the popped byte plus 1. -/
theorem test_pop_sp : after { at' 5 0 #v[9, 0, 0, 0, 0, 0, 0, 0xF3] [] with mem := [(5, 0x46), (6, 7), (0xF3, 9)] }
    (fun t => t.reg 7) = some 0x0A := by decide
/-- V44-3. -/
theorem test_cmp : after (at' 0 1 #v[0, 2, 0, 0, 0, 0, 0, 0xF4] [0xA7, 1, 3]) (fun t => (t.fl, t.pc)) =
    some (2, 3) := by decide
/-- V40-5: 0 against 0xFF is less, unsigned; nothing of the old flags stays. -/
theorem test_cmp_unsigned : after (at' 0 0xFF #v[0, 0xFF, 0, 0, 0, 0, 0, 0xF4] [0xA7, 0, 1]) (fun t => t.fl) =
    some 4 := by decide
/-- V45-1. -/
theorem test_jmp : after (at' 0x10 0 #v[0, 0, 0x40, 0, 0, 0, 0, 0xF4] [0x54, 2]) (fun t => t.pc) =
    some 0x40 := by decide
/-- V45-2. -/
theorem test_jeq : after (at' 0x12 1 #v[0, 0, 0, 0x17, 0, 0, 0, 0xF4] [0x55, 3]) (fun t => t.pc) =
    some 0x17 := by decide
/-- V45-4: the fall-through at the top of memory. -/
theorem test_jeq_wraps : after (at' 0xFE 0 #v[0, 0, 0, 0x17, 0, 0, 0, 0xF4] [0x55, 3]) (fun t => t.pc) =
    some 0x00 := by decide
/-- V45-3. -/
theorem test_jne : after (at' 0x1B 2 #v[0, 0, 0, 0, 0, 0x12, 0, 0xF4] [0x56, 5]) (fun t => t.pc) =
    some 0x12 := by decide
/-- V45-3: not taken. -/
theorem test_jne_falls_through : after (at' 0x1B 1 #v[0, 0, 0, 0, 0, 0x12, 0, 0xF4] [0x56, 5]) (fun t => t.pc) =
    some 0x1D := by decide
/-- V44-4. -/
theorem test_or : after (at' 0 0 #v[1, 2, 0, 0, 0, 0, 0, 0xF4] [0xAA, 0, 1]) (fun t => (t.reg 0, t.pc)) =
    some (3, 3) := by decide
/-- V44-4: the register copy. -/
theorem test_or_copies : after (at' 0 0 #v[0, 2, 0, 0, 0, 0, 0, 0xF4] [0xAA, 4, 1]) (fun t => t.reg 4) =
    some 2 := by decide
/-- V40-2: the ALU's SUB, driven directly. -/
theorem test_alu_sub : (aluApply .sub 0 1 (at' 0 0 #v[5, 7, 0, 0, 0, 0, 0, 0xF4] [])).reg 0 = 0xFE := by decide
/-- V41-3, its third step: 0xA1 is no SUB. -/
theorem test_unknown_opcode :
    after (at' 6 0 #v[5, 3, 0, 0, 0, 0, 0, 0xF4] [0xA1, 0, 1, 1]) (fun t => (t.status, t.fault, t.reg 0, t.pc)) =
      some (.faulted, some ⟨.unknownOpcode, 6, 0xA1⟩, 5, 6) := by decide
/-- Program P6: the empty program. -/
theorem test_empty_program :
    after (launched []) (fun t => (t.status, t.fault)) = some (.faulted, some ⟨.unknownOpcode, 0, 0⟩) := by decide

/-! ### Witnesses: for every statement with hypotheses, concrete values that meet all of them together -/

/-- LDI R0,8. -/
def ldiState : State := at' 0 0 State.reset.regs [0x82, 0, 8]
/-- A byte that is no opcode, at the top of memory. -/
def badState : State := at' 0xFF 0 State.reset.regs [0xA1]
/-- CMP R0,R1. -/
def cmpState : State := at' 0 0 State.reset.regs [0xA7, 0, 1]
/-- PUSH R0 with the stack pointer one past the next instruction's first byte (program P5). -/
def pushState : State := at' 6 0 #v[1, 0, 0, 0, 0, 0, 0, 9] [0x45, 0]
/-- PUSH R0 that stores over its own operand byte. -/
def pushOverState : State := at' 6 0 #v[1, 0, 0, 0, 0, 0, 0, 8] [0x45, 0]
/-- PRN R7. -/
def prnState : State := at' 9 0 State.reset.regs [0x47, 7]
/-- JMP R0 at the address that R0 holds (program P7). -/
def selfJumpState : State := at' 3 0 #v[3, 0, 0, 0, 0, 0, 0, 0xF4] [0x54, 0]
/-- HLT. -/
def hltState : State := at' 0 0 State.reset.regs [0x01]

theorem witness_launch_boundaries : ([] : List Byte).length ≤ 256 ∧ (List.replicate 256 (1 : Byte)).length ≤ 256 ∧
    256 < (List.replicate 257 (1 : Byte)).length := by
  simp only [List.length_replicate, List.length_nil]; omega
theorem witness_pattern_membership : Opcode.hlt ∈ [Opcode.hlt] ∧ Opcode.pop ∈ [Opcode.prn, .push, .pop] ∧
    Opcode.jne ∈ [Opcode.jmp, .jeq, .jne] ∧ Opcode.or ∈ [Opcode.ldi, .mul, .add, .cmp, .or] ∧ opc .or = opc .or := by decide
theorem witness_decoder_selection : decode 0x82 0 8 = .ok (.ldi 0 8) ∧ decode 0x82 255 255 = .ok (.ldi 255 255) := ⟨rfl, rfl⟩
theorem witness_unused_bytes : decode 0x01 0 0 = .ok .hlt ∧ ¬0 < (operandCount 0x01).toNat ∧
    decode 0x45 7 0 = .ok (.push 7) ∧ 0 < (operandCount 0x45).toNat ∧ ¬1 < (operandCount 0x45).toNat ∧
    decode 0x82 0 8 = .ok (.ldi 0 8) ∧ 1 < (operandCount 0x82).toNat :=
  ⟨rfl, by decide, rfl, by decide, by decide, rfl, by decide⟩
theorem witness_step_decoded : ldiState.status = .running ∧
    decode (ldiState.memRead ldiState.pc) (ldiState.memRead (ldiState.pc + 1)) (ldiState.memRead (ldiState.pc + 2)) =
      .ok (.ldi 0 8) := ⟨rfl, rfl⟩
/-- A two-byte instruction whose operand byte lies at address 0. -/
theorem witness_step_in_memory :
    let s : State := { State.reset with pc := 0xFF, mem := [(0, 7), (0xFF, 0x45)] }
    s.status = .running ∧
      ∀ (k : Nat) (v : Byte), (encode (.push 7))[k]? = some v → Memory.read s.mem ((s.pc.toNat + k) % 256) = v := by
  refine ⟨rfl, fun k v h => ?_⟩
  match k, h with
  | 0, h => simp only [encode] at h; cases h; decide
  | 1, h => simp only [encode] at h; cases h; decide
  | k + 2, h => simp [encode] at h
theorem witness_unregistered : badState.status = .running ∧ ∀ o : Opcode, badState.memRead badState.pc ≠ opc o :=
  ⟨rfl, fun o => by cases o <;> decide⟩
theorem witness_not_running : ({ State.reset with status := .halted } : State).status = .halted ∧
    ({ State.reset with status := .faulted } : State).status = .faulted ∧ Status.halted ≠ .running := by decide
theorem witness_running_step_ends : ldiState.status = .running ∧ hltState.status = .running ∧
    hltState.memRead hltState.pc = opc .hlt ∧ ldiState.memRead ldiState.pc ≠ opc .hlt := by decide
theorem witness_pc_follows : ldiState.status = .running ∧ ldiState.memRead ldiState.pc = opc .ldi ∧
    setsPc (ldiState.memRead ldiState.pc) = false ∧ selfJumpState.status = .running ∧
    selfJumpState.memRead selfJumpState.pc = opc .jmp ∧ setsPc (selfJumpState.memRead selfJumpState.pc) = true := by decide
theorem witness_flags_kept_and_written : (∃ t, step ldiState = .next t) ∧ ldiState.memRead ldiState.pc ≠ opc .cmp ∧
    (∃ t, step cmpState = .next t) ∧ cmpState.memRead cmpState.pc = opc .cmp :=
  ⟨⟨_, rfl⟩, by decide, ⟨_, rfl⟩, by decide⟩
theorem witness_memory_kept_and_written : (∃ t, step ldiState = .next t) ∧ ldiState.memRead ldiState.pc ≠ opc .push ∧
    (∃ t, step pushState = .next t) ∧ pushState.memRead pushState.pc = opc .push ∧ (0 : Byte) ≠ pushState.reg 7 - 1 :=
  ⟨⟨_, rfl⟩, by decide, ⟨_, rfl⟩, by decide, by decide⟩
theorem witness_register_written : (∃ t, step ldiState = .next t ∧ t.reg 0 ≠ ldiState.reg 0) ∧
    ∃ t, step pushState = .next t ∧ t.reg 7 ≠ pushState.reg 7 := ⟨⟨_, rfl, by decide⟩, ⟨_, rfl, by decide⟩⟩
theorem witness_output_kept_and_written : (∃ t, step ldiState = .next t) ∧ ldiState.memRead ldiState.pc ≠ opc .prn ∧
    (∃ t, step prnState = .next t) ∧ prnState.memRead prnState.pc = opc .prn :=
  ⟨⟨_, rfl⟩, by decide, ⟨_, rfl⟩, by decide⟩
theorem witness_other_flag_bits : (∃ t, step ldiState = .next t) ∧ (∃ t, step cmpState = .next t) ∧
    (0xFE : Byte).getLsbD 0 = ldiState.fl.getLsbD 0 ∧ (0xFE : Byte).getLsbD 0 = cmpState.fl.getLsbD 0 :=
  ⟨⟨_, rfl⟩, ⟨_, rfl⟩, by decide, by decide⟩
theorem witness_invariant_step : Inv ldiState ∧ (∃ t, step ldiState = .next t) ∧ Inv badState ∧
    (∃ t, step badState = .next t ∧ t.status = .faulted) ∧ Inv hltState ∧ ∃ t, step hltState = .next t ∧ t.status = .halted :=
  ⟨by decide, ⟨_, rfl⟩, by decide, ⟨_, rfl, rfl⟩, by decide, ⟨_, rfl, rfl⟩⟩
/-- A run from launch on which no CMP has executed, and one on which one has. -/
theorem witness_flags_run : (launch [0x82, 0, 8] = .next (launched [0x82, 0, 8]) ∧
      ∃ v, step (launched [0x82, 0, 8]) = .next v ∧ v.fl = 0x00 ∧ Reaches (launched [0x82, 0, 8]) v ∧ Reaches v v) ∧
    launch [0xA7, 0, 1] = .next (launched [0xA7, 0, 1]) ∧
      ∃ v, step (launched [0xA7, 0, 1]) = .next v ∧ v.fl = 0x01 :=
  ⟨⟨rfl, ⟨_, rfl, rfl, .step rfl (.refl _), .refl _⟩⟩, rfl, ⟨_, rfl, by decide⟩⟩
/-- The three outcomes of a comparison, at neighbouring and at extreme values. -/
theorem witness_comparison_outcomes :
    (at' 0 0 #v[5, 5, 0, 0, 0, 0, 0, 0] []).reg 0 = (at' 0 0 #v[5, 5, 0, 0, 0, 0, 0, 0] []).reg 1 ∧
    ((at' 0 0 #v[0x80, 0x7F, 0, 0, 0, 0, 0, 0] []).reg 1).toNat < ((at' 0 0 #v[0x80, 0x7F, 0, 0, 0, 0, 0, 0] []).reg 0).toNat ∧
    ((at' 0 0 #v[0, 0xFF, 0, 0, 0, 0, 0, 0] []).reg 0).toNat < ((at' 0 0 #v[0, 0xFF, 0, 0, 0, 0, 0, 0] []).reg 1).toNat := by
  decide
theorem witness_alu_result : (0 : RegIdx) ≠ 7 ∧ AluOp.sub ≠ .cmp ∧ AluOp.cmp = .cmp ∧
    State.reset.reg 0 = State.reset.reg 1 ∧ State.reset.reg 1 = State.reset.reg 2 := by decide
theorem witness_write_seen_by_fetch : (0xFF : Byte) ≠ 0x00 ∧ ldiState.pc = 0 ∧ ldiState.pc + 1 = 1 ∧ ldiState.pc + 2 = 2 := by
  decide
theorem witness_canonical_memories : Memory.wf [(0, 1), (0xFF, 2)] ∧
    ∀ addr : Byte, Memory.read [(0, 1), (0xFF, 2)] addr.toNat = Memory.read [(0, 1), (0xFF, 2)] addr.toNat :=
  ⟨by decide, fun _ => rfl⟩
theorem witness_push_frame : (0xFF : Byte) ≠ State.reset.reg 7 - 1 ∧ ridx 7 = 7 ∧ ridx 8 ≠ 7 := by decide
theorem witness_pop_registers : ridx 6 ≠ 7 ∧ ridx 7 = 7 ∧ ridx 0x0F = 7 := by decide
/-- A state that no run reaches (R17), with every bit of `fl` set: HLT leaves them. -/
theorem witness_flag_bits_kept :
    ∃ t, exec .hlt (at' 0 0xFF State.reset.regs []) = .next t ∧ 3 ≤ 7 ∧ t.fl.getLsbD 7 = true := ⟨_, rfl, by decide, by decide⟩
theorem witness_jump_flags : (at' 0 1 State.reset.regs []).fl.getLsbD 0 = true ∧
    (at' 0 4 State.reset.regs []).fl.getLsbD 0 = false := by decide
/-- A jump from the launch state to cell 0, which holds no registered opcode. -/
theorem witness_jump_into_unregistered : (Instr.jne 0 = .jmp 0 ∨ Instr.jne 0 = .jeq 0 ∨ Instr.jne 0 = .jne 0) ∧
    ∃ t, exec (.jne 0) State.reset = .next t ∧ t.status = .running ∧ ∀ o : Opcode, t.memRead t.pc ≠ opc o :=
  ⟨by decide, _, rfl, rfl, fun o => by cases o <;> decide⟩
theorem witness_ldi_prn_registers : (0 : Byte).toNat < 8 ∧ (7 : Byte).toNat < 8 := by decide
/-- Neither byte R7, the first, the second, and both, one of them a byte above 7. -/
theorem witness_push_pop_registers : (ridx 0 ≠ 7 ∧ ridx 6 ≠ 7) ∧ (ridx 7 = 7 ∧ ridx 0 ≠ 7) ∧ (ridx 1 ≠ 7 ∧ ridx 7 = 7) ∧
    ridx 7 = 7 ∧ ridx 0x0F = 7 := by decide
theorem witness_compare_then_jump :
    State.reset.reg (ridx 0) = State.reset.reg (ridx 1) ∧ State.reset.reg (ridx 0) ≠ State.reset.reg (ridx 7) := by decide
theorem witness_pushed_byte_fetched : pushState.status = .running ∧ pushState.memRead pushState.pc = opc .push ∧
    pushState.reg 7 - 1 = pushState.pc + 2 ∧ pushOverState.memRead pushOverState.pc = opc .push ∧
    pushOverState.reg 7 - 1 = pushOverState.pc + 1 := by decide
theorem witness_self_jump : selfJumpState.status = .running ∧ selfJumpState.memRead selfJumpState.pc = opc .jmp ∧
    selfJumpState.reg (ridx (selfJumpState.memRead (selfJumpState.pc + 1))) = selfJumpState.pc := by decide
theorem witness_run_loop_steps : ldiState.status = .running ∧ ∃ t, step ldiState = .next t ∧ t.reg 0 = 8 :=
  ⟨rfl, _, rfl, by decide⟩
theorem witness_run_loop_stopped : (runLoop 1 hltState).status ≠ .running := by decide
theorem witness_ends_of_runs : (∃ t, Reaches hltState t ∧ t.status = .halted) ∧ ∃ t, Reaches badState t ∧ t.status = .faulted :=
  ⟨⟨_, .step rfl (.refl _), rfl⟩, ⟨_, .step rfl (.refl _), rfl⟩⟩
theorem witness_word_placed : decodeTableWord 24 0x080082 = some (.ldi 0 8) ∧ decodeTableWord 8 0x01 = some .hlt := by decide

end Sys2Proof.Tests
end

/-! # The state and its invariant: proofs of the obligations of 10_state.md

First what the decoder, a handler and a step do to each field of the state, said once; then the obligations. -/

section StepLaws

namespace Sys2Proof

/-- The instruction of a registered opcode with its two candidate operand bytes (R53). -/
def Opcode.withOperands : Opcode → Byte → Byte → Instr
  | .hlt, _, _ => .hlt
  | .ldi, opa, opb => .ldi opa opb
  | .prn, opa, _ => .prn opa
  | .mul, opa, opb => .mul opa opb
  | .add, opa, opb => .add opa opb
  | .push, opa, _ => .push opa
  | .pop, opa, _ => .pop opa
  | .cmp, opa, opb => .cmp opa opb
  | .jmp, opa, _ => .jmp opa
  | .jeq, opa, _ => .jeq opa
  | .jne, opa, _ => .jne opa
  | .or, opa, opb => .or opa opb

@[simp] theorem op_withOperands (o : Opcode) (opa opb : Byte) : (o.withOperands opa opb).op = o := by
  cases o <;> rfl

/-- A registered byte decodes to its opcode's instruction. -/
theorem decode_opc (o : Opcode) (opa opb : Byte) : decode (opc o) opa opb = .ok (o.withOperands opa opb) := by
  unfold decode
  rw [lookupOpcode_opc]
  cases o <;> rfl

@[simp] theorem opc_inj {o p : Opcode} : opc o = opc p ↔ o = p :=
  ⟨opc_injective, congrArg opc⟩

namespace Machine

/-! ### The step as an equivalence -/

/-- What an instruction leaves: its handler's state after the PC update. -/
def executed (i : Instr) (s : State) : State := pcUpdate i.op s.pc (handled i s)

theorem exec_eq_executed (i : Instr) (s : State) : exec i s = .next (executed i s) := exec_eq_handled i s

/-- The instruction that the registered opcode `o` at `pc` makes of the bytes fetched after it (R81, R84). -/
def fetchedInstr (o : Opcode) (s : State) : Instr :=
  o.withOperands (s.memRead (s.pc + 1)) (s.memRead (s.pc + 2))

@[simp] theorem op_fetchedInstr (o : Opcode) (s : State) : (fetchedInstr o s).op = o := op_withOperands o _ _

theorem step_of_registered {s : State} {o : Opcode} (hrun : s.status = .running) (hir : s.memRead s.pc = opc o) :
    step s = .next (executed (fetchedInstr o s) s) := by
  simp only [step, hrun, noStep, fetch, hir, decode_opc]
  exact exec_eq_executed _ s

theorem step_of_unregistered {s : State} (hrun : s.status = .running) (hir : lookupOpcode (s.memRead s.pc) = none) :
    step s = .next (raise .unknownOpcode s.pc (s.memRead s.pc) s) := by
  simp only [step, hrun, noStep, fetch, decode_error.mpr ⟨hir, rfl⟩]
  rfl

/-- A step answers a next state exactly while Running, and the byte at `pc` says which. -/
theorem step_eq_next_iff {s t : State} : step s = .next t ↔ s.status = .running ∧
    ((∃ o, s.memRead s.pc = opc o ∧ t = executed (fetchedInstr o s) s) ∨
      (lookupOpcode (s.memRead s.pc) = none ∧ t = raise .unknownOpcode s.pc (s.memRead s.pc) s)) := by
  constructor
  · intro h
    obtain ⟨hrun, -⟩ := step_cases h
    refine ⟨hrun, ?_⟩
    rcases hl : lookupOpcode (s.memRead s.pc) with _ | o
    · rw [step_of_unregistered hrun hl] at h
      exact .inr ⟨rfl, (Host.Outcome.next.inj h).symm⟩
    · have hir := lookupOpcode_eq_some.mp hl
      rw [step_of_registered hrun hir] at h
      exact .inl ⟨o, hir, (Host.Outcome.next.inj h).symm⟩
  · rintro ⟨hrun, ⟨o, hir, rfl⟩ | ⟨hir, rfl⟩⟩
    · exact step_of_registered hrun hir
    · exact step_of_unregistered hrun hir

theorem ne_opc_of_unregistered {ir : Byte} (h : lookupOpcode ir = none) (o : Opcode) : ir ≠ opc o := by
  rintro rfl
  simp [lookupOpcode_opc] at h

/-! ### What a handler does to each field -/

variable (i : Instr) (s : State)

@[simp] theorem handled_jeq (opa : Byte) :
    handled (.jeq opa) s = s.setPc (if s.flagE then s.reg (ridx opa) else s.pc + 2) := jumpIf_eq s _ opa

@[simp] theorem handled_jne (opa : Byte) :
    handled (.jne opa) s = s.setPc (if !s.flagE then s.reg (ridx opa) else s.pc + 2) := jumpIf_eq s _ opa

@[simp] theorem handled_fault : (handled i s).fault = s.fault := by
  cases i with
  | jeq | jne => simp
  | _ => rfl

/-- HLT alone writes the status (R18). -/
theorem handled_status : (handled i s).status = if i.op = .hlt then .halted else s.status := by
  cases i with
  | jeq | jne => simp [Instr.op]
  | _ => rfl

theorem handled_fl_of_ne_cmp (h : i.op ≠ .cmp) : (handled i s).fl = s.fl := by
  cases i with
  | cmp => exact absurd rfl h
  | jeq | jne => simp
  | _ => rfl

theorem handled_mem_of_ne_push (h : i.op ≠ .push) : (handled i s).mem = s.mem := by
  cases i with
  | push => exact absurd rfl h
  | jeq | jne => simp
  | _ => rfl

theorem handled_wf (h : Memory.wf s.mem) : Memory.wf (handled i s).mem := by
  by_cases hi : i.op = .push
  · cases i with
    | push opa => exact pushReg_wf s (ridx opa) h
    | _ => cases hi
  · rwa [handled_mem_of_ne_push i s hi]

/-- The pairs an instruction appends to the output stream: PRN's one, and none for any other (R21). -/
def emitted : Instr → State → List OutputPair
  | .prn opa, s => [⟨ridx opa, s.reg (ridx opa)⟩]
  | _, _ => []

theorem emitted_of_ne_prn (h : i.op ≠ .prn) : emitted i s = [] := by
  cases i with
  | prn => exact absurd rfl h
  | _ => rfl

theorem handled_out : (handled i s).out = s.out ++ emitted i s := by
  cases i with
  | prn => rfl
  | jeq | jne => simp [emitted]
  | _ => exact (List.append_nil s.out).symm

/-- The registers an instruction may write: the write column of R12's table, and the R7 role of R11. -/
def writtenRegs : Instr → List RegIdx
  | .ldi opa _ | .mul opa _ | .add opa _ | .or opa _ => [ridx opa]
  | .push _ => [Config.sp]
  | .pop opa => [ridx opa, Config.sp]
  | _ => []

theorem handled_reg_of_not_written {i : Instr} {r : RegIdx} (h : r ∉ writtenRegs i) :
    (handled i s).reg r = s.reg r := by
  cases i with
  | ldi | mul | add | or | push | pop =>
    simp only [writtenRegs, List.mem_cons, List.not_mem_nil, or_false, not_or] at h
    simp [handled, aluApply, h]
  | jeq | jne => simp
  | _ => rfl

/-! ### What an instruction does to each field -/

@[simp] theorem executed_reg (r : RegIdx) : (executed i s).reg r = (handled i s).reg r := pcUpdate_reg ..
@[simp] theorem executed_fl : (executed i s).fl = (handled i s).fl := pcUpdate_fl ..
@[simp] theorem executed_status : (executed i s).status = (handled i s).status := pcUpdate_status ..
@[simp] theorem executed_fault : (executed i s).fault = s.fault := (pcUpdate_fault ..).trans (handled_fault i s)
@[simp] theorem executed_mem : (executed i s).mem = (handled i s).mem := pcUpdate_mem ..
@[simp] theorem executed_out : (executed i s).out = s.out ++ emitted i s := (pcUpdate_out ..).trans (handled_out i s)

/-- CMP leaves the comparison of the two registers in `fl`, whatever `fl` held (R75). -/
@[simp] theorem executed_cmp_fl (opa opb : Byte) :
    (executed (.cmp opa opb) s).fl = compareFlags (s.reg (ridx opa)) (s.reg (ridx opb)) := executed_fl ..

/-! ### Non-interference: what happens to the rest when a field the instruction does not read differs -/

/-- The PC update as one write of `pc`. -/
theorem pcUpdate_eq_setPc (o : Opcode) (pc0 : Byte) :
    pcUpdate o pc0 s = s.setPc (if setsPc (opc o) then s.pc else pc0 + 1 + (operandCount (opc o)).setWidth 8) := by
  unfold pcUpdate
  split <;> rfl

theorem executed_with_control (st : Status) (f : Option FaultRecord) :
    ∃ st', executed i { s with status := st, fault := f } = { executed i s with status := st', fault := f } := by
  simp only [executed, pcUpdate_eq_setPc]
  cases i with
  | hlt => exact ⟨.halted, rfl⟩
  | jeq | jne => exact ⟨st, by simp only [handled_jeq, handled_jne]; rfl⟩
  | _ => exact ⟨st, rfl⟩

theorem executed_with_out (o : List OutputPair) :
    executed i { s with out := o } = { executed i s with out := o ++ emitted i s } := by
  simp only [executed, pcUpdate_eq_setPc]
  cases i with
  | prn => rfl
  | jeq | jne => simp only [handled_jeq, handled_jne, emitted, List.append_nil]; rfl
  | _ => simp only [emitted, List.append_nil]; rfl

theorem executed_with_fl {f : Byte} (hE : f.getLsbD 0 = s.fl.getLsbD 0) :
    executed i { s with fl := f } = if i.op = .cmp then executed i s else { executed i s with fl := f } := by
  have hflagE : State.flagE { s with fl := f } = s.flagE := hE
  simp only [executed, pcUpdate_eq_setPc]
  cases i with
  | jeq | jne => simp only [handled_jeq, handled_jne, hflagE]; rfl
  | _ => rfl

end Machine

end Sys2Proof

end StepLaws

section FlagLaws

namespace Sys2Proof.Machine

/-- `fl` after a comparison: exactly one of E, G, L (R16). -/
def OneFlagSet (v : Byte) : Prop := v = 0x01 ∨ v = 0x02 ∨ v = 0x04

theorem oneFlagSet_compareFlags (va vb : Byte) : OneFlagSet (compareFlags va vb) := by
  rcases compareFlags_cases va vb with ⟨-, h⟩ | ⟨-, h⟩ | ⟨-, h⟩
  · exact .inl h
  · exact .inr (.inl h)
  · exact .inr (.inr h)

theorem OneFlagSet.ne_zero {v : Byte} (h : OneFlagSet v) : v ≠ 0x00 := by
  rcases h with rfl | rfl | rfl <;> decide

theorem OneFlagSet.getLsbD_high {v : Byte} (h : OneFlagSet v) {k : Nat} (hk : 3 ≤ k) : v.getLsbD k = false := by
  have hlt : v.toNat < 2 ^ 3 := by rcases h with rfl | rfl | rfl <;> decide
  exact Nat.testBit_lt_two_pow (hlt.trans_le (Nat.pow_le_pow_right (by decide) hk))

/-- The bits of a comparison: E, G and L say equal, greater and less (R15). -/
theorem compareFlags_bits (va vb : Byte) :
    ((compareFlags va vb).getLsbD 0 = true ↔ va = vb) ∧
      ((compareFlags va vb).getLsbD 1 = true ↔ vb.toNat < va.toNat) ∧
      ((compareFlags va vb).getLsbD 2 = true ↔ va.toNat < vb.toNat) := by
  rcases compareFlags_cases va vb with ⟨rfl, h⟩ | ⟨hgt, h⟩ | ⟨hlt, h⟩
  · simp [h, flagsEqual]
  · have hgt' : vb.toNat < va.toNat := hgt
    have hne : va ≠ vb := by rintro rfl; exact Nat.lt_irrefl _ hgt'
    simp [h, flagsGreater, hne, hgt', hgt'.le]
  · have hlt' : va.toNat < vb.toNat := hlt
    have hne : va ≠ vb := by rintro rfl; exact Nat.lt_irrefl _ hlt'
    simp [h, flagsLess, hne, hlt', hlt'.le]

theorem oneFlagSet_executed {i : Instr} (s : State) (h : i.op = .cmp) : OneFlagSet (executed i s).fl := by
  cases i with
  | cmp opa opb =>
    rw [executed_cmp_fl]
    exact oneFlagSet_compareFlags _ _
  | _ => cases h

theorem executed_fl_of_ne_cmp {i : Instr} (s : State) (h : i.op ≠ .cmp) : (executed i s).fl = s.fl :=
  (executed_fl i s).trans (handled_fl_of_ne_cmp i s h)

end Sys2Proof.Machine

end FlagLaws

section InvariantLaws

namespace Sys2Proof.Safety

open Sys2Proof.Machine

/-- Away from Faulted the fault record is true exactly if it is empty (R19). -/
theorem faultRecordTrue_iff_of_ne_faulted {s : State} (h : s.status ≠ .faulted) :
    faultRecordTrue s = true ↔ s.fault = none := by
  obtain ⟨_, _, _, st, f, _, _⟩ := s
  cases st with
  | running | halted => cases f <;> simp [faultRecordTrue]
  | faulted => exact absurd rfl h

/-- The entry into the fatal condition records the byte that `pc` still points at (R142). -/
theorem faultRecordTrue_raise {s : State} (h : lookupOpcode (s.memRead s.pc) = none) :
    faultRecordTrue (raise .unknownOpcode s.pc (s.memRead s.pc) s) = true := by
  simp [faultRecordTrue, h]

/-- Legal flags are no flag at all or the result of a comparison (R17). -/
theorem flagsLegal_iff {s : State} : FlagsLegal s ↔ s.fl = 0x00 ∨ OneFlagSet s.fl := Iff.rfl

/-- What every step keeps holds of every state reached. -/
theorem Reaches.keeps (P : State → Prop) (hstep : ∀ s t, Machine.step s = .next t → P s → P t) {s t : State}
    (h : Reaches s t) : P s → P t := by
  induction h with
  | refl => exact id
  | step hst _ ih => exact fun hs => ih (hstep _ _ hst hs)

end Sys2Proof.Safety

end InvariantLaws

section StateObligations

namespace Sys2Proof.Proofs

open Sys2Proof.Machine Sys2Proof.Safety

/-- An executed instruction keeps the flags legal. -/
theorem flagsLegal_executed (i : Instr) {s : State} (h : FlagsLegal s) : FlagsLegal (executed i s) := by
  by_cases hi : i.op = .cmp
  · exact flagsLegal_iff.mpr (.inr (oneFlagSet_executed s hi))
  · rwa [FlagsLegal, executed_fl_of_ne_cmp s hi]

/-- A Running state with an empty record still has a true record after an instruction, which cannot fault. -/
theorem faultRecordTrue_executed (i : Instr) {s : State} (hrun : s.status = .running)
    (h : faultRecordTrue s = true) : faultRecordTrue (executed i s) = true := by
  have hnone : s.fault = none := (faultRecordTrue_iff_of_ne_faulted (by simp [hrun])).mp h
  have hst : (executed i s).status ≠ .faulted := by
    rw [executed_status, handled_status, hrun]
    split <;> decide
  exact (faultRecordTrue_iff_of_ne_faulted hst).mpr ((executed_fault i s).trans hnone)

/-- Only HLT halts, and it leaves `pc` one past the byte it was fetched from (R88). -/
theorem haltedPastHlt_executed {o : Opcode} {s : State} (hrun : s.status = .running)
    (hir : s.memRead s.pc = opc o) : HaltedPastHlt (executed (fetchedInstr o s) s) := by
  intro hhalt
  rw [executed_status, handled_status, op_fetchedInstr, hrun] at hhalt
  by_cases ho : o = .hlt
  · subst ho
    have hpc : (executed (fetchedInstr .hlt s) s).pc = s.pc + 1 := pcUpdate_pc_hlt ..
    have hmem : (executed (fetchedInstr .hlt s) s).mem = s.mem := executed_mem ..
    rw [State.memRead, hpc, hmem, BitVec.add_sub_cancel]
    exact hir
  · simp [ho] at hhalt

/-- Settles O26, clause by clause for an executed instruction and for the entry into the fatal condition. -/
theorem everyStepKeepsTheInvariant : Obligations.EveryStepKeepsTheInvariant := by
  intro s t ⟨hwf, hfl, hrec, hhalt⟩ h
  obtain ⟨hrun, ⟨o, hir, rfl⟩ | ⟨hir, rfl⟩⟩ := step_eq_next_iff.mp h
  · refine ⟨?_, flagsLegal_executed _ hfl, faultRecordTrue_executed _ hrun hrec, haltedPastHlt_executed hrun hir⟩
    rw [executed_mem]
    exact handled_wf _ s hwf
  · refine ⟨hwf, hfl, faultRecordTrue_raise hir, fun hs => ?_⟩
    simp at hs

/-- Settles O17: status and fault record pass through every instruction unread. -/
theorem everyInstructionExecutesInEveryState : Obligations.EveryInstructionExecutesInEveryState := by
  intro i s st f
  obtain ⟨st', hu⟩ := executed_with_control i s st f
  refine ⟨executed i s, _, exec_eq_executed i s, exec_eq_executed i _, ?_⟩
  rw [hu]
  exact ⟨rfl, rfl, rfl, rfl, rfl⟩

/-- Settles O18, by the registered opcode at `pc` or the entry into the fatal condition. -/
theorem onlyCmpWritesTheFlags : Obligations.OnlyCmpWritesTheFlags := by
  intro s t h
  obtain ⟨-, ⟨o, hir, rfl⟩ | ⟨hir, rfl⟩⟩ := step_eq_next_iff.mp h
  · rw [hir, Ne, opc_inj]
    have hop := op_fetchedInstr o s
    exact ⟨fun ho => executed_fl_of_ne_cmp s (hop.trans_ne ho), fun ho => oneFlagSet_executed s (hop.trans ho)⟩
  · exact ⟨fun _ => rfl, fun hcmp => absurd hcmp (ne_opc_of_unregistered hir _)⟩

/-- Settles O20: the register changed is one of `writtenRegs`, read off for each opcode. -/
theorem registersAreWrittenOnlyAsTheTableSays : Obligations.RegistersAreWrittenOnlyAsTheTableSays := by
  intro s t r h hne
  obtain ⟨-, ⟨o, hir, rfl⟩ | ⟨-, rfl⟩⟩ := step_eq_next_iff.mp h
  · have hw : r ∈ writtenRegs (fetchedInstr o s) := by
      by_contra hw
      exact hne ((executed_reg ..).trans (handled_reg_of_not_written s hw))
    rw [hir]
    cases o with
    | ldi | mul | add | or => exact .inl ⟨by simp, List.mem_singleton.mp hw⟩
    | push => exact .inr ⟨by simp, List.mem_singleton.mp hw⟩
    | pop =>
      rcases List.mem_pair.mp hw with hr | hr
      · exact .inl ⟨by simp, hr⟩
      · exact .inr ⟨by simp, hr⟩
    | _ => cases hw
  · exact absurd rfl hne

/-- Settles O21: what an instruction appends is `emitted`, PRN's pair or nothing. -/
theorem onlyPrnAppendsToTheOutput : Obligations.OnlyPrnAppendsToTheOutput := by
  intro s t h
  obtain ⟨-, ⟨o, hir, rfl⟩ | ⟨hir, rfl⟩⟩ := step_eq_next_iff.mp h
  · rw [hir, Ne, opc_inj, executed_out]
    refine ⟨fun ho => ?_, ?_⟩
    · rw [emitted_of_ne_prn _ s (by simpa using ho), List.append_nil]
    · rintro rfl
      rfl
  · exact ⟨fun _ => rfl, fun hprn => absurd hprn (ne_opc_of_unregistered hir _)⟩

/-- Settles O22: the other stream changes neither the fetch nor what the instruction does besides. -/
theorem theOutputIsNeverRead : Obligations.TheOutputIsNeverRead := by
  intro s t o' h
  obtain ⟨hrun, ⟨o, hir, rfl⟩ | ⟨hir, rfl⟩⟩ := step_eq_next_iff.mp h
  · refine ⟨emitted (fetchedInstr o s) s, executed_out _ s, ?_⟩
    rw [← executed_with_out]
    exact step_of_registered hrun hir
  · refine ⟨[], (List.append_nil _).symm, ?_⟩
    rw [List.append_nil]
    exact step_of_unregistered hrun hir

/-- Settles O23: with bit 0 the same, every instruction takes the same branch. -/
theorem onlyTheEqualFlagIsRead : Obligations.OnlyTheEqualFlagIsRead := by
  intro s t f h hE
  obtain ⟨hrun, ⟨o, hir, rfl⟩ | ⟨hir, rfl⟩⟩ := step_eq_next_iff.mp h
  · have hx := executed_with_fl (fetchedInstr o s) s hE
    rw [op_fetchedInstr] at hx
    simp only [hir, opc_inj, ← hx]
    exact step_of_registered hrun hir
  · rw [if_neg (ne_opc_of_unregistered hir _)]
    exact step_of_unregistered hrun hir

/-- A step leaves `fl` as it was or holding a comparison. -/
theorem step_fl_eq_or_oneFlagSet {s t : State} (h : step s = .next t) : t.fl = s.fl ∨ OneFlagSet t.fl := by
  obtain ⟨hkeep, hset⟩ := onlyCmpWritesTheFlags s t h
  by_cases hcmp : s.memRead s.pc = opc .cmp
  · exact .inr (hset hcmp)
  · exact .inl (hkeep hcmp)

/-- Once a comparison stands in `fl`, one stands there for the rest of the run. -/
theorem oneFlagSet_of_reaches {s t : State} (h : Reaches s t) : OneFlagSet s.fl → OneFlagSet t.fl :=
  h.keeps (fun s => OneFlagSet s.fl) fun _ _ hst hs =>
    (step_fl_eq_or_oneFlagSet hst).elim (fun heq => heq ▸ hs) id

/-- Legal flags stay legal for the rest of the run. -/
theorem flagsLegal_of_reaches {s t : State} (h : Reaches s t) : FlagsLegal s → FlagsLegal t :=
  h.keeps FlagsLegal fun _ _ hst hs =>
    (step_fl_eq_or_oneFlagSet hst).elim (fun heq => by rwa [FlagsLegal, heq]) .inr

/-- Launch leaves the reset value in `fl` (R162). -/
theorem launch_fl {image : List Byte} {s : State} (h : launch image = .next s) : s.fl = 0x00 := by
  unfold launch load at h
  split at h
  · obtain rfl := Host.Outcome.next.inj h
    rfl
  · cases h

/-- Settles O27: the flags start clear, and after the first CMP they are never clear again. -/
theorem flagsOnEveryRunFromLaunch : Obligations.FlagsOnEveryRunFromLaunch := by
  intro image s t hlaunch hreach
  refine ⟨flagsLegal_of_reaches hreach (.inl (launch_fl hlaunch)), fun hzero u v _ hstep hrest hcmp => ?_⟩
  have hv : OneFlagSet v.fl := (onlyCmpWritesTheFlags u v hstep).2 hcmp
  exact (oneFlagSet_of_reaches hrest hv).ne_zero hzero

/-- Settles O45: CMP's bits are those of `compareFlags`, and every other instruction leaves `fl`. -/
theorem flagBitsSayEqualGreaterLess : Obligations.FlagBitsSayEqualGreaterLess := by
  refine ⟨fun opa opb s => ⟨_, exec_eq_executed _ s, ?_⟩, fun i s t k h hk hbit => ?_⟩
  · rw [executed_cmp_fl]
    obtain ⟨hE, hG, hL⟩ := compareFlags_bits (s.reg (ridx opa)) (s.reg (ridx opb))
    exact ⟨hE, hG, hL, fun _ => (oneFlagSet_compareFlags _ _).getLsbD_high⟩
  · obtain rfl := Host.Outcome.next.inj ((exec_eq_executed i s).symm.trans h)
    by_cases hi : i.op = .cmp
    · rw [(oneFlagSet_executed s hi).getLsbD_high hk] at hbit
      cases hbit
    · rwa [executed_fl_of_ne_cmp s hi] at hbit

/-- Settles O1, field by field. -/
theorem resetLeavesTheStatedValues : Obligations.ResetLeavesTheStatedValues :=
  ⟨by decide, rfl, rfl, rfl, rfl, fun _ => rfl, rfl⟩

/-- Settles O24, clause by clause. -/
theorem resetMeetsTheInvariant : Obligations.ResetMeetsTheInvariant :=
  ⟨⟨.nil, by simp [State.reset]⟩, .inl rfl, rfl, fun h => by cases h⟩

end Sys2Proof.Proofs

end StateObligations

/-! # Memory: proofs of the obligations of 20_memory.md

First what a canonical memory lists, how memory is read after the shared operations and what a step fetches; then the
obligations. -/

section MemoryLaws

namespace Sys2Proof

/-- The first byte of an encoding is its opcode's (R50). -/
theorem encode_getElem?_zero (i : Instr) : (encode i)[0]? = some (opc i.op) := by
  cases i <;> rfl

/-- Operand bytes that agree with an encoding as far as it goes give the instruction back. -/
theorem withOperands_of_encode {i : Instr} {opa opb : Byte} (ha : ∀ v, (encode i)[1]? = some v → opa = v)
    (hb : ∀ v, (encode i)[2]? = some v → opb = v) : i.op.withOperands opa opb = i := by
  cases i with
  | hlt => rfl
  | prn | push | pop | jmp | jeq | jne =>
    obtain rfl := ha _ rfl
    rfl
  | ldi | mul | add | cmp | or =>
    obtain rfl := ha _ rfl
    obtain rfl := hb _ rfl
    rfl

theorem decodeTableWord_eq_some {nbits w : Nat} {i : Instr} : decodeTableWord nbits w = some i ↔
    decode (tableByte nbits w 0) (tableByte nbits w 1) (tableByte nbits w 2) = .ok i := by
  unfold decodeTableWord
  split <;> simp [*]

namespace Machine

/-! ### The canonical form -/

/-- A cell that does not read as unlisted is listed with what it reads as. -/
theorem Memory.mem_of_read_ne_unlisted {m : Memory} {k : Nat} (h : Memory.read m k ≠ Memory.unlisted) :
    (k, Memory.read m k) ∈ m := by
  induction m with
  | nil => exact absurd rfl h
  | cons c m ih =>
    rw [Memory.read_cons] at h ⊢
    split at h
    next hk => simp [← hk]
    next hk =>
      rw [if_neg hk]
      exact List.mem_cons_of_mem _ (ih h)

/-- Where the addresses rise, a listed cell reads as listed. -/
theorem Memory.read_of_mem {m : Memory} (hm : m.Pairwise (fun c d => c.1 < d.1)) {c : Host.Cell} (hc : c ∈ m) :
    Memory.read m c.1 = c.2 := by
  induction m with
  | nil => cases hc
  | cons d m ih =>
    obtain ⟨hd, hm'⟩ := List.pairwise_cons.mp hm
    rw [Memory.read_cons]
    rcases List.mem_cons.mp hc with rfl | hc
    · exact if_pos rfl
    · rw [if_neg (hd c hc).ne]
      exact ih hm' hc

/-- A canonical memory lists exactly the cells that differ from their reset content. -/
theorem Memory.mem_iff_of_wf {m : Memory} (h : Memory.wf m) {c : Host.Cell} :
    c ∈ m ↔ Memory.read m c.1 = c.2 ∧ c.2 ≠ Memory.unlisted := by
  obtain ⟨hrise, hcell⟩ := h
  constructor
  · exact fun hc => ⟨Memory.read_of_mem hrise hc, (hcell c hc).2⟩
  · rintro ⟨hread, hne⟩
    have hmem : (c.1, Memory.read m c.1) ∈ m := Memory.mem_of_read_ne_unlisted (hread ▸ hne)
    rwa [hread] at hmem

/-- A canonical memory lists no cell that another one, reading the same at every address, does not list. -/
theorem Memory.subset_of_read_eq {m n : Memory} (hm : Memory.wf m) (hn : Memory.wf n)
    (h : ∀ addr : Byte, Memory.read m addr.toNat = Memory.read n addr.toNat) : m ⊆ n := by
  intro c hc
  obtain ⟨hread, hne⟩ := (Memory.mem_iff_of_wf hm).mp hc
  have hlt : c.1 < 256 := (hm.2 c hc).1
  have haddr : (BitVec.ofNat 8 c.1).toNat = c.1 := Nat.mod_eq_of_lt hlt
  have hsame := h (BitVec.ofNat 8 c.1)
  rw [haddr] at hsame
  exact (Memory.mem_iff_of_wf hn).mpr ⟨hsame.symm.trans hread, hne⟩

/-- Canonical memories that read the same at every address are the same data. -/
theorem Memory.eq_of_read_eq {m n : Memory} (hm : Memory.wf m) (hn : Memory.wf n)
    (h : ∀ addr : Byte, Memory.read m addr.toNat = Memory.read n addr.toNat) : m = n := by
  have hasymm : Std.Asymm (fun c d : Host.Cell => c.1 < d.1) := ⟨fun _ _ => Nat.lt_asymm⟩
  exact List.Subset.antisymm_of_pairwise hm.1 hn.1 (Memory.subset_of_read_eq hm hn h)
    (Memory.subset_of_read_eq hn hm fun addr => (h addr).symm)

/-! ### Loading -/

theorem launch_of_length_le {image : List Byte} (h : image.length ≤ 256) :
    launch image = .next { State.reset with mem := loadFrom 0 image [] } := if_pos h

theorem launch_of_length_gt {image : List Byte} (h : 256 < image.length) :
    launch image = .refused .imageTooLong := if_neg (Nat.not_le.mpr h)

theorem State.withFetchWord_memRead (s : State) (nbits w : Nat) (addr : Byte) :
    (s.withFetchWord nbits w).memRead addr =
      if addr = s.pc + 2 then tableByte nbits w 2
      else if addr = s.pc + 1 then tableByte nbits w 1
      else if addr = s.pc then tableByte nbits w 0 else s.memRead addr := by
  simp only [← State.memRead_memWrite]
  rfl

/-! ### The fetch and the step -/

/-- A cell numbered from `pc` upward modulo 256 is read at the byte address that wraps to it (R35, R37). -/
theorem memRead_pc_add (s : State) (k : Nat) :
    s.memRead (s.pc + BitVec.ofNat 8 k) = Memory.read s.mem ((s.pc.toNat + k) % 256) := by
  simp [State.memRead]

/-- While Running, the step is the instruction that the fetched bytes decode to (R80). -/
theorem step_of_decode {s : State} {i : Instr} (hrun : s.status = .running)
    (h : decode (fetch s).ir (fetch s).opa (fetch s).opb = .ok i) : step s = exec i s := by
  simp only [step, hrun, noStep, h]

/-- The three bytes of the placed word are the three bytes fetched: the cells of the fetch are distinct. -/
theorem fetch_withFetchWord (s : State) (nbits w : Nat) : fetch (s.withFetchWord nbits w) =
    ⟨tableByte nbits w 0, tableByte nbits w 1, tableByte nbits w 2⟩ := by
  have hpc : (s.withFetchWord nbits w).pc = s.pc := rfl
  have h01 : s.pc ≠ s.pc + 1 := by bv_omega
  have h02 : s.pc ≠ s.pc + 2 := by bv_omega
  have h12 : s.pc + 1 ≠ s.pc + 2 := by bv_omega
  simp only [fetch, hpc, State.withFetchWord_memRead, h01, h02, h12, if_true, if_false]

@[simp] theorem executed_memRead (i : Instr) (s : State) (addr : Byte) :
    (executed i s).memRead addr = (handled i s).memRead addr := pcUpdate_memRead ..

/-- A PUSH writes the cell below the stack pointer and no other (R107, R108). -/
theorem executed_push_memRead (opa : Byte) (s : State) (addr : Byte) : (executed (.push opa) s).memRead addr =
    if addr = s.reg 7 - 1 then (if ridx opa = 7 then s.reg 7 - 1 else s.reg (ridx opa)) else s.memRead addr :=
  (executed_memRead ..).trans (pushReg_memRead ..)

theorem executed_memRead_of_ne_push {i : Instr} (s : State) (h : i.op ≠ .push) (addr : Byte) :
    (executed i s).memRead addr = s.memRead addr := by
  rw [executed_memRead, State.memRead, handled_mem_of_ne_push i s h, State.memRead]

end Machine

end Sys2Proof

end MemoryLaws

section MemoryObligations

namespace Sys2Proof.Proofs

open Sys2Proof.Machine Sys2Proof.Safety

/-- Settles O2: `launch` is reset and then the load, which `read_loadFrom` reads back. -/
theorem launchHoldsTheImage : Obligations.LaunchHoldsTheImage := by
  refine ⟨fun image h => ⟨_, launch_of_length_le h, fun addr => ?_, fun _ => rfl, rfl, rfl, rfl, rfl, rfl⟩,
    fun _ => launch_of_length_gt⟩
  rw [State.memRead, read_loadFrom]
  simp [Memory.unlisted, Config.memReset]

/-- Settles O11: the cells from `pc` upward are those the step fetches, and its bytes fix the instruction. -/
theorem stepRunsTheInstructionInMemory : Obligations.StepRunsTheInstructionInMemory := by
  intro s i hrun hmem
  have hbyte (k : Nat) (v : Byte) (hv : (encode i)[k]? = some v) : s.memRead (s.pc + BitVec.ofNat 8 k) = v :=
    (memRead_pc_add s k).trans (hmem k v hv)
  have hir : s.memRead s.pc = opc i.op := by simpa using hbyte 0 _ (encode_getElem?_zero i)
  have hinstr : fetchedInstr i.op s = i := withOperands_of_encode (hbyte 1) (hbyte 2)
  rw [step_of_registered hrun hir, hinstr, exec_eq_executed]

/-- Settles O19, by the registered opcode at `pc` or the entry into the fatal condition. -/
theorem onlyPushWritesMemory : Obligations.OnlyPushWritesMemory := by
  intro s t h
  obtain ⟨-, ⟨o, hir, rfl⟩ | ⟨-, rfl⟩⟩ := step_eq_next_iff.mp h
  · rw [hir, Ne, opc_inj]
    refine ⟨fun ho => executed_memRead_of_ne_push s ((op_fetchedInstr o s).trans_ne ho), ?_⟩
    rintro rfl addr haddr
    exact (executed_push_memRead ..).trans (if_neg haddr)
  · exact ⟨fun _ _ => rfl, fun _ _ _ => rfl⟩

/-- Settles O35: a canonical list is determined by its members, and its members by what it reads as. -/
theorem canonicalMemoriesThatReadAlikeAreEqual : Obligations.CanonicalMemoriesThatReadAlikeAreEqual :=
  ⟨fun _ addr v h => Memory.wf_write h addr.isLt v, fun _ _ => Memory.eq_of_read_eq⟩

/-- Settles O53: the PUSH runs on the bytes it fetched, and the next fetch reads the memory it left. -/
theorem pushedByteIsFetchedByTheNextStep : Obligations.PushedByteIsFetchedByTheNextStep := by
  intro s hrun hir
  have hpc : (executed (fetchedInstr .push s) s).pc = s.pc + 2 := pcUpdate_pc_push ..
  have hstored := (executed_push_memRead (s.memRead (s.pc + 1)) s (s.reg 7 - 1)).trans (if_pos rfl)
  refine ⟨_, step_of_registered hrun hir, hpc, ?_, ?_, hstored, fun hcell => ?_⟩
  · rw [executed_status, handled_status, op_fetchedInstr, if_neg (by decide), hrun]
  · exact (executed_reg ..).trans ((pushReg_reg ..).trans (if_pos rfl))
  · rw [fetch, hpc, ← hcell]
    exact hstored

/-- Settles O57: the fetch reads the placed bytes, so the step runs what the decoder makes of them. -/
theorem theWordPlacedIsTheOneThatRuns : Obligations.TheWordPlacedIsTheOneThatRuns := by
  intro s nbits w
  have hfetch := fetch_withFetchWord s nbits w
  refine ⟨hfetch, fun i hi => step_of_decode rfl ?_⟩
  rw [hfetch]
  exact decodeTableWord_eq_some.mp hi

/-- Settles O34: read after write, through `memRead` and through the three reads of the fetch. -/
theorem memoryReadsBackWhatWasWritten : Obligations.MemoryReadsBackWhatWasWritten := by
  intro s addr v
  have hsame : (s.memWrite addr v).memRead addr = v := by rw [State.memRead_memWrite, if_pos rfl]
  refine ⟨hsame, fun other hne => ?_, fun _ _ => rfl, rfl, rfl, ⟨rfl, rfl⟩, rfl, ?_⟩
  · rw [State.memRead_memWrite, if_neg hne]
  · refine ⟨?_, ?_, ?_⟩ <;> (rintro rfl; exact hsame)

end Sys2Proof.Proofs

end MemoryObligations

/-! # The encoding: proofs of the obligations of 30_encoding.md

First the decoder as an equivalence, the encoding as the front of the bytes decoded, the registered bytes and the
masking of register bytes; then the obligations. -/

section EncodingLaws

namespace Sys2Proof

/-! ### The decoder and the encoder -/

/-- What the decoder answers: the byte's opcode with the operand bytes (R58, R84). -/
theorem decode_eq_ok_iff {ir opa opb : Byte} {i : Instr} :
    decode ir opa opb = .ok i ↔ ∃ o, ir = opc o ∧ i = o.withOperands opa opb := by
  constructor
  · intro h
    obtain rfl := opc_op_of_decode h
    exact ⟨i.op, rfl, (Except.ok.inj ((decode_opc ..).symm.trans h)).symm⟩
  · rintro ⟨o, rfl, rfl⟩
    exact decode_opc o opa opb

/-- The encoding is the front of the three bytes, as long as the operand count says (R50, R53). -/
theorem encode_withOperands (o : Opcode) (opa opb : Byte) :
    encode (o.withOperands opa opb) = [opc o, opa, opb].take (1 + (operandCount (opc o)).toNat) := by
  cases o <;> rfl

/-- A registered opcode has at most two operand bytes (R56). -/
theorem operandCount_opc_le (o : Opcode) : (operandCount (opc o)).toNat ≤ 2 := by
  cases o <;> decide

/-- Operand bytes that agree on the bytes the operand count covers give the same instruction (R53). -/
theorem withOperands_congr {o : Opcode} {opa opb opa' opb' : Byte}
    (ha : 0 < (operandCount (opc o)).toNat → opa' = opa) (hb : 1 < (operandCount (opc o)).toNat → opb' = opb) :
    o.withOperands opa' opb' = o.withOperands opa opb := by
  cases o with
  | hlt => rfl
  | prn | push | pop | jmp | jeq | jne =>
    obtain rfl := ha (by decide)
    rfl
  | ldi | mul | add | cmp | or =>
    obtain rfl := ha (by decide)
    obtain rfl := hb (by decide)
    rfl

/-- The decoder reads an encoding's own bytes, and no byte that follows them matters. -/
theorem decodeBytes_encode_append (i : Instr) (rest : List Byte) : decodeBytes (encode i ++ rest) = .ok i := by
  have hbyte (k : Nat) (v : Byte) (hv : (encode i)[k]? = some v) : (encode i ++ rest).getD k 0 = v := by
    obtain ⟨hk, -⟩ := List.getElem?_eq_some_iff.mp hv
    rw [List.getD_eq_getElem?_getD, List.getElem?_append_left hk, hv, Option.getD_some]
  rw [decodeBytes, hbyte 0 _ (encode_getElem?_zero i), decode_opc, withOperands_of_encode (hbyte 1) (hbyte 2)]

/-! ### The registered bytes -/

theorem Opcode.mem_all (o : Opcode) : o ∈ Opcode.all := by
  cases o <;> decide

theorem isSome_lookupOpcode_iff {ir : Byte} : (lookupOpcode ir).isSome ↔ ∃ o, ir = opc o := by
  simp only [Option.isSome_iff_exists, lookupOpcode_eq_some]

/-- The numbers of the bytes that the lookup finds are the values of the opcode map (R58). -/
theorem registered_perm_map_opc : ((List.range 256).filter fun n => (lookupOpcode (BitVec.ofNat 8 n)).isSome).Perm
    (Opcode.all.map fun o => (opc o).toNat) := by
  refine (List.perm_ext_iff_of_nodup (List.nodup_range.filter _) ?_).mpr fun n => ?_
  · exact List.Nodup.map (fun _ _ h => opc_injective (BitVec.eq_of_toNat_eq h)) (by decide)
  · simp only [List.mem_filter, List.mem_range, List.mem_map, Opcode.mem_all, true_and, isSome_lookupOpcode_iff]
    constructor
    · rintro ⟨hn, o, ho⟩
      exact ⟨o, by rw [← ho, BitVec.toNat_ofNat, Nat.mod_eq_of_lt hn]⟩
    · rintro ⟨o, rfl⟩
      exact ⟨(opc o).isLt, o, (BitVec.ofNat_toNat ..).trans (BitVec.setWidth_eq _)⟩

/-- The bytes found and the bytes not found make up the 256 (R60). -/
theorem length_unregistered :
    ((List.range 256).filter fun n => (lookupOpcode (BitVec.ofNat 8 n)).isNone).length = 244 := by
  have hsplit := (List.range 256).length_eq_length_filter_add fun n => (lookupOpcode (BitVec.ofNat 8 n)).isSome
  have hfound := registered_perm_map_opc.length_eq
  rw [List.length_map, show Opcode.all.length = 12 from rfl] at hfound
  simp only [Option.not_isSome, List.length_range, hfound] at hsplit
  omega

namespace Machine

/-! ### The masking of register bytes -/

theorem toNat_and_seven (b : Byte) : (b &&& 7#8).toNat = b.toNat % 8 :=
  (BitVec.toNat_and ..).trans (Nat.and_two_pow_sub_one_eq_mod _ 3)

@[simp] theorem ridx_and_seven (b : Byte) : ridx (b &&& 7#8) = ridx b := by
  apply Fin.ext
  rw [ridx_val, ridx_val, toNat_and_seven, Nat.mod_mod]

@[simp] theorem regByteOk_and_seven (b : Byte) : regByteOk (b &&& 7#8) = true := by
  rw [regByteOk, toNat_and_seven]
  exact decide_eq_true (Nat.mod_lt _ (by decide))

end Machine

namespace Safety

open Machine

@[simp] theorem op_maskRegs (i : Instr) : (maskRegs i).op = i.op := by
  cases i <;> rfl

theorem maskRegs_wellFormed (i : Instr) : (maskRegs i).wellFormed = true := by
  cases i <;> simp [maskRegs, Instr.wellFormed]

/-- A handler reads a register byte through `ridx` alone (R54). -/
theorem handled_maskRegs (i : Instr) (s : State) : handled (maskRegs i) s = handled i s := by
  cases i <;> simp [maskRegs, handled, jumpIf_eq]

end Safety

end Sys2Proof

end EncodingLaws

section EncodingObligations

namespace Sys2Proof.Proofs

open Sys2Proof.Machine Sys2Proof.Safety

/-- Settles O7: an encoding fixes what is decoded, and is the front of the bytes it is decoded from. -/
theorem decodeAndEncodeAreInverse : Obligations.DecodeAndEncodeAreInverse := by
  refine ⟨decodeBytes_encode_append, fun ir opa opb i h => ?_⟩
  obtain ⟨o, rfl, rfl⟩ := decode_eq_ok_iff.mp h
  rw [encode_withOperands]
  refine ⟨List.take_prefix .., List.length_take_of_le ?_⟩
  have hcnt := operandCount_opc_le o
  simp only [List.length_cons, List.length_nil]
  omega

/-- Settles O6: the decoder answers on the bytes of the opcode map, and the opcode it answers has the byte decoded. -/
theorem decoderSelectsByTheOpcodeByteAlone : Obligations.DecoderSelectsByTheOpcodeByteAlone := by
  refine ⟨fun ir opa opb => ⟨fun ⟨i, h⟩ => ⟨i.op, (opc_op_of_decode h).symm⟩, ?_⟩, fun _ _ _ _ => opc_op_of_decode,
    fun _ _ _ _ _ _ _ h h' => opc_injective ((opc_op_of_decode h).trans (opc_op_of_decode h').symm)⟩
  rintro ⟨o, rfl⟩
  exact ⟨_, decode_opc o opa opb⟩

/-- Settles O8: the instruction is built from the bytes that the operand count covers. -/
theorem unusedOperandBytesAreIgnored : Obligations.UnusedOperandBytesAreIgnored := by
  intro ir opa opb opa' opb' i h ha hb
  obtain ⟨o, rfl, rfl⟩ := decode_eq_ok_iff.mp h
  rw [decode_opc, withOperands_congr ha hb]

/-- Settles O9: masking changes neither the opcode, which fixes the PC update, nor the handler's state. -/
theorem registerBytesActByTheirLowThreeBits : Obligations.RegisterBytesActByTheirLowThreeBits := by
  refine fun i s => ⟨?_, maskRegs_wellFormed i⟩
  rw [exec_eq_handled, exec_eq_handled, op_maskRegs, handled_maskRegs]

/-- Settles O3: the fields are read off the twelve values. -/
theorem opcodeBytesMatchTheSourcePatterns : Obligations.OpcodeBytesMatchTheSourcePatterns :=
  ⟨fun _ _ => opc_injective, by decide, by decide, by decide, by decide⟩

/-- Settles O4: the bytes found are the values of the opcode map, listed here in the order of `Opcode.all`. -/
theorem exactlyTwelveBytesAreRegistered : Obligations.ExactlyTwelveBytesAreRegistered := by
  refine ⟨fun ir => ?_, length_unregistered⟩
  have hlist : [0x01, 0x82, 0x47, 0xA2, 0xA0, 0x45, 0x46, 0xA7, 0x54, 0x55, 0x56, 0xAA] = Opcode.all.map opc := rfl
  rw [Bool.eq_iff_iff, isSome_lookupOpcode_iff, decide_eq_true_iff, hlist]
  simp only [List.mem_map, Opcode.mem_all, true_and, eq_comm]

end Sys2Proof.Proofs

end EncodingObligations

/-! # The ALU: proofs of the obligations of 40_alu_unit.md

First the ALU as one value computed from the two operands and written to one place; then the obligations. -/

section AluLaws

namespace Sys2Proof.Machine

/-- The value an ALU operation makes of its two operands (R71 to R75): CMP's goes to `fl`, any other to `x[a]`. -/
def AluOp.result : AluOp → Byte → Byte → Byte
  | .add, va, vb => va + vb
  | .sub, va, vb => va - vb
  | .mul, va, vb => va * vb
  | .or, va, vb => va ||| vb
  | .cmp, va, vb => compareFlags va vb

variable {op : AluOp} (a b : RegIdx) (s : State)

theorem aluApply_of_ne_cmp (h : op ≠ .cmp) :
    aluApply op a b s = s.setReg a (op.result (s.reg a) (s.reg b)) := by
  cases op with
  | cmp => exact absurd rfl h
  | _ => rfl

/-- An arithmetic or logical operation leaves its value in `x[a]`; with `a = b` both operands are its old value (R70). -/
theorem aluApply_reg_self (h : op ≠ .cmp) : (aluApply op a b s).reg a = op.result (s.reg a) (s.reg b) := by
  rw [aluApply_of_ne_cmp a b s h, State.reg_setReg, if_pos rfl]

theorem aluApply_fl_of_ne_cmp (h : op ≠ .cmp) : (aluApply op a b s).fl = s.fl := by
  rw [aluApply_of_ne_cmp a b s h, State.setReg_fl]

theorem aluApply_reg_of_ne {r : RegIdx} (h : r ≠ a) : (aluApply op a b s).reg r = s.reg r := by
  rcases aluApply_cases s a b op with ⟨-, v, hv⟩ | ⟨-, v, hv⟩
  · rw [hv, State.reg_setReg, if_neg h]
  · rw [hv, State.setFl_reg]

@[simp] theorem aluApply_cmp_reg (r : RegIdx) : (aluApply .cmp a b s).reg r = s.reg r := rfl

@[simp] theorem aluApply_cmp_fl : (aluApply .cmp a b s).fl = compareFlags (s.reg a) (s.reg b) := rfl

/-- The ALU touches registers and flags only (R70): every other field passes through. -/
theorem aluApply_frame : (aluApply op a b s).pc = s.pc ∧ (aluApply op a b s).status = s.status ∧
    (aluApply op a b s).fault = s.fault ∧ (aluApply op a b s).mem = s.mem ∧ (aluApply op a b s).out = s.out := by
  rcases aluApply_cases s a b op with ⟨-, v, hv⟩ | ⟨-, v, hv⟩ <;> rw [hv] <;> exact ⟨rfl, rfl, rfl, rfl, rfl⟩

theorem compareFlags_self (v : Byte) : compareFlags v v = 0x01 := if_pos rfl

theorem compareFlags_of_gt {va vb : Byte} (h : vb.toNat < va.toNat) : compareFlags va vb = 0x02 := by
  have hne : va ≠ vb := by rintro rfl; exact Nat.lt_irrefl _ h
  rw [compareFlags, if_neg hne, if_pos (BitVec.lt_def.mpr h)]
  rfl

theorem compareFlags_of_lt {va vb : Byte} (h : va.toNat < vb.toNat) : compareFlags va vb = 0x04 := by
  have hne : va ≠ vb := by rintro rfl; exact Nat.lt_irrefl _ h
  rw [compareFlags, if_neg hne, if_neg (fun hgt => Nat.lt_asymm h (BitVec.lt_def.mp hgt))]
  rfl

/-- Subtraction of bytes, read as numbers, is the non-negative residue of the difference (R72). -/
theorem toNat_sub_eq_emod (va vb : Byte) : ((va - vb).toNat : Int) = ((va.toNat : Int) - vb.toNat) % 256 := by
  have ha := va.isLt
  have hb := vb.isLt
  rw [BitVec.toNat_sub]
  omega

end Sys2Proof.Machine

end AluLaws

section AluObligations

namespace Sys2Proof.Proofs

open Sys2Proof.Machine Sys2Proof.Safety

/-- Settles O33: the ALU's value is a function of the operation and the two operands, and one place is written. -/
theorem aluTouchesOnlyItsResult : Obligations.AluTouchesOnlyItsResult := by
  refine ⟨fun op => by cases op <;> decide, ?_⟩
  rintro op a b s _ rfl
  obtain ⟨hpc, hstatus, hfault, hmem, hout⟩ := aluApply_frame (op := op) a b s
  refine ⟨fun r hr => ?_, aluApply_fl_of_ne_cmp a b s, hpc, ⟨hstatus, hfault⟩, fun addr => ?_, hout,
    fun hab => aluApply_reg_of_ne a b s (Ne.symm hab), fun c d u hc hd => ⟨fun hop => ?_, ?_⟩⟩
  · by_cases hop : op = .cmp
    · subst hop
      exact aluApply_cmp_reg a b s r
    · rw [if_neg hop, List.mem_singleton] at hr
      exact aluApply_reg_of_ne a b s hr
  · rw [State.memRead, hmem, State.memRead]
  · rw [aluApply_reg_self c d u hop, aluApply_reg_self a b s hop, hc, hd]
  · rintro rfl
    rw [aluApply_cmp_fl, aluApply_cmp_fl, hc, hd]

/-- Settles O28: the ADD of the bytes is their sum modulo 256. -/
theorem aluAddKeepsTheLowByte : Obligations.AluAddKeepsTheLowByte := by
  intro a b s
  have hop : AluOp.add ≠ .cmp := by decide
  refine ⟨?_, aluApply_fl_of_ne_cmp a b s hop⟩
  rw [aluApply_reg_self a b s hop]
  exact BitVec.toNat_add ..

/-- Settles O29: the SUB of the bytes is the residue of their difference. -/
theorem aluSubIsTheResidue : Obligations.AluSubIsTheResidue := by
  intro a b s
  have hop : AluOp.sub ≠ .cmp := by decide
  refine ⟨?_, aluApply_fl_of_ne_cmp a b s hop⟩
  rw [aluApply_reg_self a b s hop]
  exact toNat_sub_eq_emod ..

/-- Settles O30: the MUL of the bytes is their product modulo 256, and the selector has no sixth value. -/
theorem aluMulKeepsTheLowByte : Obligations.AluMulKeepsTheLowByte := by
  refine ⟨fun op => by cases op <;> decide, fun a b s => ?_⟩
  have hop : AluOp.mul ≠ .cmp := by decide
  refine ⟨?_, aluApply_fl_of_ne_cmp a b s hop⟩
  rw [aluApply_reg_self a b s hop]
  exact BitVec.toNat_mul ..

/-- Settles O31: the OR of the bytes is taken bit by bit. -/
theorem aluOrIsBitwise : Obligations.AluOrIsBitwise := by
  intro a b s
  have hop : AluOp.or ≠ .cmp := by decide
  refine ⟨fun k _ => ?_, aluApply_fl_of_ne_cmp a b s hop⟩
  rw [aluApply_reg_self a b s hop]
  exact BitVec.getLsbD_or ..

/-- Settles O32: `fl` becomes the comparison of the two registers, in which the old `fl` does not occur. -/
theorem aluCompareReplacesTheFlags : Obligations.AluCompareReplacesTheFlags := by
  intro a b s
  rw [aluApply_cmp_fl]
  refine ⟨fun heq => ?_, compareFlags_of_gt, compareFlags_of_lt, fun f => aluApply_cmp_fl a b (s.setFl f)⟩
  rw [heq]
  exact compareFlags_self _

end Sys2Proof.Proofs

end AluObligations

/-! # The step cycle: proofs of the obligations of 41_step_cycle.md

First when a step answers and where it leaves `pc`, how rounds of the run loop compose, and that a run has one end; then
the obligations. -/

section StepCycleLaws

namespace Sys2Proof

namespace Machine

/-! ### When a step answers -/

/-- Where a status has a reason for no step, the step stops with that reason (R80, R91). -/
theorem step_of_noStep {s : State} {f : Fault} (h : noStep s.status = some f) : step s = .fault f := by
  simp only [step, h]

theorem status_of_step {s t : State} (h : step s = .next t) : s.status = .running :=
  (step_eq_next_iff.mp h).1

theorem exists_step_of_running {s : State} (hrun : s.status = .running) : ∃ t, step s = .next t := by
  rcases hl : lookupOpcode (s.memRead s.pc) with _ | o
  · exact ⟨_, step_of_unregistered hrun hl⟩
  · exact ⟨_, step_of_registered hrun (lookupOpcode_eq_some.mp hl)⟩

/-! ### Where a step leaves `pc` -/

/-- The PC update's test is on bit 4 of the opcode byte (R86). -/
theorem executed_pc (i : Instr) (s : State) : (executed i s).pc =
    if setsPc (opc i.op) then (handled i s).pc else s.pc + 1 + (operandCount (opc i.op)).setWidth 8 :=
  pcUpdate_pc ..

theorem jumpIf_pc (taken : Bool) (opa : Byte) (s : State) :
    (jumpIf taken opa s).pc = s.reg (ridx opa) ∨ (jumpIf taken opa s).pc = s.pc + 2 := by
  cases taken with
  | true => exact .inl rfl
  | false => exact .inr rfl

/-- A handler that sets `pc` goes to its operand register or falls through by 2 (R125). -/
theorem handled_pc_of_setsPc {o : Opcode} (h : setsPc (opc o) = true) (opa opb : Byte) (s : State) :
    (handled (o.withOperands opa opb) s).pc = s.reg (ridx opa) ∨
      (handled (o.withOperands opa opb) s).pc = s.pc + 2 := by
  cases o with
  | jmp => exact .inl rfl
  | jeq | jne => exact jumpIf_pc _ opa s
  | _ => cases h

/-- A JMP is one write of `pc` (R126). -/
theorem executed_jmp (opa : Byte) (s : State) : executed (.jmp opa) s = s.setPc (s.reg (ridx opa)) :=
  if_pos (by decide : setsPc (opc .jmp) = true)

/-! ### The rounds of the run loop -/

@[simp] theorem runLoop_zero (s : State) : runLoop 0 s = s := rfl

/-- A round performs the step that the machine takes (R90). -/
theorem runLoop_succ_of_step {s t : State} (h : step s = .next t) (n : Nat) : runLoop (n + 1) s = runLoop n t := by
  rw [runLoop, if_pos (status_of_step h), h]

theorem runLoop_of_not_running {s : State} (h : s.status ≠ .running) (n : Nat) : runLoop n s = s := by
  cases n with
  | zero => rfl
  | succ n => rw [runLoop, if_neg h]

theorem runLoop_of_step_self {s : State} (h : step s = .next s) (n : Nat) : runLoop n s = s := by
  induction n with
  | zero => rfl
  | succ n ih => rw [runLoop_succ_of_step h, ih]

theorem runLoop_add (n m : Nat) (s : State) : runLoop (n + m) s = runLoop m (runLoop n s) := by
  induction n generalizing s with
  | zero => rw [Nat.zero_add, runLoop_zero]
  | succ n ih =>
    by_cases hrun : s.status = .running
    · obtain ⟨t, ht⟩ := exists_step_of_running hrun
      rw [Nat.succ_add, runLoop_succ_of_step ht, runLoop_succ_of_step ht, ih]
    · simp only [runLoop_of_not_running hrun]

end Machine

namespace Safety

open Sys2Proof.Machine

theorem reaches_runLoop (n : Nat) (s : State) : Reaches s (runLoop n s) := by
  induction n generalizing s with
  | zero => exact .refl s
  | succ n ih =>
    by_cases hrun : s.status = .running
    · obtain ⟨t, ht⟩ := exists_step_of_running hrun
      rw [runLoop_succ_of_step ht]
      exact .step ht (ih t)
    · rw [runLoop_of_not_running hrun]
      exact .refl s

/-- A stopped machine reaches only the state it stopped in (R91). -/
theorem Reaches.eq_of_not_running {s t : State} (h : Reaches s t) (hs : s.status ≠ .running) : s = t := by
  cases h with
  | refl => rfl
  | step hst _ => exact absurd (status_of_step hst) hs

/-- A run that reaches a stopped state goes through every other state reached: steps are deterministic. -/
theorem Reaches.of_reaches_end {s t u : State} (ht : Reaches s t) (hend : t.status ≠ .running) (hu : Reaches s u) :
    Reaches u t := by
  induction hu with
  | refl => exact ht
  | step hst _ ih =>
    cases ht with
    | refl => exact absurd (status_of_step hst) hend
    | step hst' hrest =>
      obtain rfl := Host.Outcome.next.inj (hst'.symm.trans hst)
      exact ih hrest

/-- Two ends of runs from one state are one state. -/
theorem Reaches.end_unique {s t u : State} (ht : Reaches s t) (htend : t.status ≠ .running) (hu : Reaches s u)
    (huend : u.status ≠ .running) : t = u :=
  ((ht.of_reaches_end htend hu).eq_of_not_running huend).symm

end Safety

end Sys2Proof

end StepCycleLaws

section StepCycleObligations

namespace Sys2Proof.Proofs

open Sys2Proof.Machine Sys2Proof.Safety

/-- Settles O16: the two branches of the PC update, the second of which leaves what the jump's handler wrote. -/
theorem pcFollowsTheFetchedOpcode : Obligations.PcFollowsTheFetchedOpcode := by
  intro s o hrun hir
  refine ⟨_, step_of_registered hrun hir, ?_⟩
  rw [hir, PcAdvanced, executed_pc, op_fetchedInstr]
  refine ⟨fun hadvance => ?_, fun hsets => ?_⟩
  · rw [if_neg (by simp [hadvance])]
    bv_omega
  · rw [if_pos hsets]
    rcases handled_pc_of_setsPc hsets (s.memRead (s.pc + 1)) (s.memRead (s.pc + 2)) s with hpc | hpc
    · exact .inl hpc
    · exact .inr ((congrArg BitVec.toNat hpc).trans (BitVec.toNat_add ..))

/-- Settles O54: the one field that JMP writes keeps its value, so no round of the loop changes the state. -/
theorem jumpToItselfRunsForever : Obligations.JumpToItselfRunsForever := by
  intro s hrun hir htarget
  have hself : step s = .next s := by
    rw [step_of_registered hrun hir]
    exact congrArg Host.Outcome.next ((executed_jmp _ s).trans (congrArg s.setPc htarget))
  refine ⟨hself, fun n => ?_⟩
  rwa [runLoop_of_step_self hself n]

/-- Settles O55: later rounds start from the state the first ones left, and a stopped state has none left to perform. -/
theorem theRunLoopStopsForGood : Obligations.TheRunLoopStopsForGood := by
  refine ⟨runLoop_zero, fun n _ _ _ hst => runLoop_succ_of_step hst n,
    fun n m s => ⟨reaches_runLoop n s, fun hend => ?_⟩⟩
  rw [runLoop_add, runLoop_of_not_running hend]

/-- Settles O56: an end that is both Faulted and Halted would be one state with two statuses. -/
theorem theEndOfARunIsUnique : Obligations.TheEndOfARunIsUnique := by
  refine ⟨fun _ _ _ => Reaches.end_unique, ?_⟩
  rintro s t u ⟨ht, hfaulted⟩ ⟨hu, hhalted⟩
  obtain rfl := ht.end_unique (by simp [hfaulted]) hu (by simp [hhalted])
  rw [hfaulted] at hhalted
  cases hhalted

/-- Settles O10: the three bytes are those of the fetch. -/
theorem stepRunsTheDecodedInstruction : Obligations.StepRunsTheDecodedInstruction :=
  fun _ _ hrun h => step_of_decode hrun h

/-- Settles O12: a byte address wraps where the cell number is taken modulo 256. -/
theorem fetchAddressesWrap : Obligations.FetchAddressesWrap :=
  fun s => ⟨rfl, memRead_pc_add s 1, memRead_pc_add s 2⟩

/-- Settles O14: Halted and Faulted each have a reason for no step, and a step that answers starts Running. -/
theorem noStepUnlessRunning : Obligations.NoStepUnlessRunning :=
  fun _ => ⟨fun hs => step_of_noStep (hs ▸ rfl), fun hs => step_of_noStep (hs ▸ rfl),
    fun hs _ hst => hs (status_of_step hst)⟩

end Sys2Proof.Proofs

end StepCycleObligations

/-! # System and output: proofs of the obligations of 42_system_output.md

First the frame of an instruction in the terms of the statements, and what LDI and PRN leave where they write; then the
obligations. -/

section SystemOutputLaws

namespace Sys2Proof.Safety

open Sys2Proof.Machine

/-! ### The frame of an executed instruction -/

/-- Where the opcode does not set `pc`, the advance is the instruction's length, modulo 256 (R14, R87). -/
theorem pcAdvanced_executed {i : Instr} {n : Nat} (s : State) (h : setsPc (opc i.op) = false)
    (hn : instrLength (opc i.op) = some n) : PcAdvanced n s (executed i s) := by
  have hpc : (executed i s).pc = s.pc + BitVec.ofNat 8 n := pcUpdate_pc_of_length _ _ _ h hn
  rw [PcAdvanced, hpc, BitVec.toNat_add, BitVec.toNat_ofNat, Nat.add_mod_mod]

theorem sameRegsExcept_executed (i : Instr) (s : State) : SameRegsExcept (writtenRegs i) s (executed i s) :=
  fun r hr => (executed_reg i s r).trans (handled_reg_of_not_written s hr)

theorem sameControl_executed_of_ne_hlt {i : Instr} (s : State) (h : i.op ≠ .hlt) : SameControl s (executed i s) := by
  refine ⟨?_, executed_fault i s⟩
  rw [executed_status, handled_status, if_neg h]

theorem sameMemory_executed_of_ne_push {i : Instr} (s : State) (h : i.op ≠ .push) : SameMemory s (executed i s) :=
  executed_memRead_of_ne_push s h

theorem executed_out_of_ne_prn {i : Instr} (s : State) (h : i.op ≠ .prn) : (executed i s).out = s.out := by
  rw [executed_out, emitted_of_ne_prn i s h, List.append_nil]

/-! ### What LDI and PRN write -/

/-- LDI leaves its immediate in the register its first byte selects (R106). -/
theorem executed_ldi_reg (opa imm : Byte) (s : State) : (executed (.ldi opa imm) s).reg (ridx opa) = imm := by
  rw [executed_reg, handled, State.reg_setReg, if_pos rfl]

/-- PRN appends the register's index and value (R101). -/
theorem executed_prn_out (opa : Byte) (s : State) :
    (executed (.prn opa) s).out = s.out ++ [⟨ridx opa, s.reg (ridx opa)⟩] := executed_out ..

end Sys2Proof.Safety

end SystemOutputLaws

section SystemOutputObligations

namespace Sys2Proof.Proofs

open Sys2Proof.Machine Sys2Proof.Safety

/-- Settles O50: PRN emits the register that LDI wrote, and a byte in 0 to 7 selects the register of that number. -/
theorem ldiThenPrnEmitsTheImmediate : Obligations.LdiThenPrnEmitsTheImmediate := by
  intro a v s ha
  refine ⟨_, _, exec_eq_executed _ s, exec_eq_executed _ _, ridx a, ridx_val_of_ok (decide_eq_true ha), ?_⟩
  rw [executed_prn_out, executed_ldi_reg, executed_out_of_ne_prn s (i := .ldi a v) (by simp [Instr.op])]

/-- Settles O36: the status is HLT's one write besides the PC update. -/
theorem hltHaltsAndAdvances : Obligations.HltHaltsAndAdvances := by
  intro s
  have hstatus : (executed .hlt s).status = .halted := executed_status ..
  have hpc : PcAdvanced 1 s (executed .hlt s) := pcAdvanced_executed s (by decide) (by decide)
  exact ⟨_, exec_eq_executed .hlt s, hstatus, hpc, sameRegsExcept_executed .hlt s, executed_fl_of_ne_cmp s (by decide),
    executed_fault .hlt s, sameMemory_executed_of_ne_push s (by decide), executed_out_of_ne_prn s (by decide)⟩

/-- Settles O37: the pair emitted is PRN's one write besides the PC update. -/
theorem prnEmitsTheRegister : Obligations.PrnEmitsTheRegister := by
  intro opa s
  have hpc : PcAdvanced 2 s (executed (.prn opa) s) :=
    pcAdvanced_executed s (by decide : setsPc (opc .prn) = false) (by decide : instrLength (opc .prn) = some 2)
  exact ⟨_, exec_eq_executed (.prn opa) s, executed_prn_out opa s, ridx_val opa, hpc,
    sameRegsExcept_executed (.prn opa) s, executed_fl_of_ne_cmp s (by simp [Instr.op]),
    sameControl_executed_of_ne_hlt s (by simp [Instr.op]), sameMemory_executed_of_ne_push s (by simp [Instr.op])⟩

end Sys2Proof.Proofs

end SystemOutputObligations

/-! # Load and stack: proofs of the obligations of 43_load_stack.md

First the frame of an instruction that writes one register, and what PUSH, POP and the pair of them leave where they
write; then the obligations. -/

section LoadStackLaws

namespace Sys2Proof.Safety

open Sys2Proof.Machine

/-- An instruction that may write one register, and neither `fl`, the status, memory nor the output stream, has that
register as its one result. -/
theorem registerResultFrame_executed {i : Instr} {d : RegIdx} {n : Nat} (s : State) (hd : writtenRegs i = [d])
    (hop : i.op ∉ [.cmp, .hlt, .push, .prn]) (hsets : setsPc (opc i.op) = false)
    (hn : instrLength (opc i.op) = some n) : RegisterResultFrame d n s (executed i s) := by
  simp only [List.mem_cons, List.not_mem_nil, or_false, not_or] at hop
  obtain ⟨hcmp, hhlt, hpush, hprn⟩ := hop
  exact ⟨hd ▸ sameRegsExcept_executed i s, pcAdvanced_executed s hsets hn, executed_fl_of_ne_cmp s hcmp,
    sameControl_executed_of_ne_hlt s hhlt, sameMemory_executed_of_ne_push s hpush, executed_out_of_ne_prn s hprn⟩

/-! ### What PUSH and POP write -/

/-- PUSH decrements the stack pointer (R107). -/
theorem executed_push_reg (opa : Byte) (s : State) (r : RegIdx) :
    (executed (.push opa) s).reg r = if r = 7 then s.reg 7 - 1 else s.reg r :=
  (executed_reg ..).trans (pushReg_reg ..)

/-- POP loads its register and then increments the stack pointer, which may be the register loaded (R109, R110). -/
theorem executed_pop_reg (opa : Byte) (s : State) (r : RegIdx) : (executed (.pop opa) s).reg r =
    if r = 7 then (if ridx opa = 7 then s.memRead (s.reg 7) + 1 else s.reg 7 + 1)
    else if r = ridx opa then s.memRead (s.reg 7) else s.reg r :=
  (executed_reg ..).trans (popReg_reg ..)

/-- The byte that PUSH stores: its register, read after the decrement (R107, R108). -/
def pushedByte (opa : Byte) (s : State) : Byte := if ridx opa = 7 then s.reg 7 - 1 else s.reg (ridx opa)

/-- The byte pushed is the one at the pointer that PUSH leaves. -/
theorem executed_push_memRead_sp (opa : Byte) (s : State) :
    (executed (.push opa) s).memRead ((executed (.push opa) s).reg 7) = pushedByte opa s := by
  rw [executed_push_reg, if_pos rfl, executed_push_memRead, if_pos rfl, pushedByte]

/-- A POP right after a PUSH loads the byte pushed, and finds the pointer one below where it was (R112). -/
theorem executed_pop_push_reg (opa opb : Byte) (s : State) (r : RegIdx) :
    (executed (.pop opb) (executed (.push opa) s)).reg r =
      if r = 7 then (if ridx opb = 7 then pushedByte opa s + 1 else s.reg 7)
      else if r = ridx opb then pushedByte opa s else s.reg r := by
  rw [executed_pop_reg, executed_push_memRead_sp, executed_push_reg opa s 7, if_pos rfl, BitVec.sub_add_cancel]
  by_cases hr : r = 7
  · rw [if_pos hr, if_pos hr]
  · rw [if_neg hr, if_neg hr, executed_push_reg, if_neg hr]

end Sys2Proof.Safety

end LoadStackLaws

section LoadStackObligations

namespace Sys2Proof.Proofs

open Sys2Proof.Machine Sys2Proof.Safety

/-- Settles O42: the pointer and the cell below it are PUSH's two writes besides the PC update. -/
theorem pushStoresBelowTheOldPointer : Obligations.PushStoresBelowTheOldPointer := by
  intro opa s
  have hsp : ((executed (.push opa) s).reg 7).toNat = ((s.reg 7).toNat + 255) % 256 := by
    rw [executed_push_reg, if_pos rfl]
    bv_omega
  have hpc : PcAdvanced 2 s (executed (.push opa) s) :=
    pcAdvanced_executed s (by decide : setsPc (opc .push) = false) (by decide : instrLength (opc .push) = some 2)
  exact ⟨_, exec_eq_executed (.push opa) s, hsp, sameRegsExcept_executed (.push opa) s,
    (executed_push_memRead ..).trans (if_pos rfl), fun _ hne => (executed_push_memRead ..).trans (if_neg hne), hpc,
    executed_fl_of_ne_cmp s (by simp [Instr.op]), sameControl_executed_of_ne_hlt s (by simp [Instr.op]),
    executed_out_of_ne_prn s (by simp [Instr.op])⟩

/-- Settles O43: the loaded register and the pointer are POP's two writes besides the PC update, and one write where the
register is R7. -/
theorem popLoadsAndIncrements : Obligations.PopLoadsAndIncrements := by
  intro opa s
  have hpc : PcAdvanced 2 s (executed (.pop opa) s) :=
    pcAdvanced_executed s (by decide : setsPc (opc .pop) = false) (by decide : instrLength (opc .pop) = some 2)
  refine ⟨_, exec_eq_executed (.pop opa) s, fun ha => ⟨?_, ?_⟩, fun ha => ?_, sameRegsExcept_executed (.pop opa) s,
    sameMemory_executed_of_ne_push s (by simp [Instr.op]), hpc, executed_fl_of_ne_cmp s (by simp [Instr.op]),
    sameControl_executed_of_ne_hlt s (by simp [Instr.op]), executed_out_of_ne_prn s (by simp [Instr.op])⟩
  · rw [executed_pop_reg, if_neg ha, if_pos rfl]
  · rw [executed_pop_reg, if_pos rfl, if_neg ha]
    exact BitVec.toNat_add ..
  · rw [executed_pop_reg, if_pos rfl, if_pos ha]
    exact BitVec.toNat_add ..

/-- Settles O51: POP loads the byte pushed, which is the decremented pointer where R7 is pushed. -/
theorem pushThenPopMovesTheRegister : Obligations.PushThenPopMovesTheRegister := by
  intro opa opb s
  refine ⟨_, _, exec_eq_executed _ s, exec_eq_executed _ _, fun ha hb => ⟨?_, ?_, fun r hr => ?_⟩,
    fun ha hb => ⟨?_, ?_⟩, fun ha hb => ?_, fun ha hb => ?_⟩
  · rw [executed_pop_push_reg, if_neg hb, if_pos rfl, pushedByte, if_neg ha]
  · rw [executed_pop_push_reg, if_pos rfl, if_neg hb]
  · rw [executed_pop_push_reg, if_neg hb, if_neg (mt List.mem_singleton.mpr hr)]
    exact ite_eq_right_iff.mpr fun h7 => h7 ▸ rfl
  · rw [executed_pop_push_reg, if_neg hb, if_pos rfl, pushedByte, if_pos ha]
  · rw [executed_pop_push_reg, if_pos rfl, if_neg hb]
  · rw [executed_pop_push_reg, if_pos rfl, if_pos hb, pushedByte, if_neg ha]
  · rw [executed_pop_push_reg, if_pos rfl, if_pos hb, pushedByte, if_pos ha, BitVec.sub_add_cancel]

/-- Settles O38: the register is LDI's one write besides the PC update. -/
theorem ldiLoadsTheImmediate : Obligations.LdiLoadsTheImmediate := by
  intro opa imm s
  have hframe : RegisterResultFrame (ridx opa) 3 s (executed (.ldi opa imm) s) :=
    registerResultFrame_executed s rfl (by simp [Instr.op]) (by decide : setsPc (opc .ldi) = false)
      (by decide : instrLength (opc .ldi) = some 3)
  exact ⟨_, exec_eq_executed (.ldi opa imm) s, executed_ldi_reg opa imm s, hframe⟩

end Sys2Proof.Proofs

end LoadStackObligations

/-! # The ALU instructions: proofs of the obligations of 44_alu_instructions.md

First what CMP leaves in `fl` as one expression, and the frame that MUL, ADD and OR share; then the obligations, which take
the value written from the ALU's own (40_alu_unit.md). -/

section AluInstrLaws

namespace Sys2Proof.Safety

open Sys2Proof.Machine

/-- The comparison of two bytes by their unsigned values (R118, decision D22). -/
theorem compareFlags_eq_ite (va vb : Byte) : compareFlags va vb =
    if va.toNat = vb.toNat then 0x01 else if vb.toNat < va.toNat then 0x02 else 0x04 := by
  split
  case isTrue heq => rw [BitVec.eq_of_toNat_eq heq, compareFlags_self]
  case isFalse hne =>
    split
    case isTrue hgt => exact compareFlags_of_gt hgt
    case isFalse hle => exact compareFlags_of_lt (by omega)

/-- The three instructions that drive the ALU to a register result have one frame (R115). -/
theorem registerResultFrame_executed_alu {i : Instr} {d : RegIdx} (s : State) (hop : i.op ∈ [.mul, .add, .or])
    (hd : writtenRegs i = [d]) : RegisterResultFrame d 3 s (executed i s) := by
  have hopcodes : ∀ o ∈ [Opcode.mul, .add, .or],
      o ∉ [Opcode.cmp, .hlt, .push, .prn] ∧ setsPc (opc o) = false ∧ instrLength (opc o) = some 3 := by decide
  obtain ⟨hother, hsets, hlen⟩ := hopcodes i.op hop
  exact registerResultFrame_executed s hd hother hsets hlen

end Sys2Proof.Safety

end AluInstrLaws

section AluInstrObligations

namespace Sys2Proof.Proofs

open Sys2Proof.Machine Sys2Proof.Safety

/-- Settles O44: `fl` is CMP's one write besides the PC update. -/
theorem cmpWritesTheFlagsAlone : Obligations.CmpWritesTheFlagsAlone := by
  intro opa opb s
  have hpc : PcAdvanced 3 s (executed (.cmp opa opb) s) :=
    pcAdvanced_executed s (by decide : setsPc (opc .cmp) = false) (by decide : instrLength (opc .cmp) = some 3)
  exact ⟨_, exec_eq_executed (.cmp opa opb) s, (executed_cmp_fl ..).trans (compareFlags_eq_ite ..),
    sameRegsExcept_executed (.cmp opa opb) s, hpc, sameControl_executed_of_ne_hlt s (by simp [Instr.op]),
    sameMemory_executed_of_ne_push s (by simp [Instr.op]), executed_out_of_ne_prn s (by simp [Instr.op])⟩

/-- Settles O39: the register holds what the ALU's MUL writes. -/
theorem mulWritesTheLowByteOfTheProduct : Obligations.MulWritesTheLowByteOfTheProduct := by
  intro opa opb s
  obtain ⟨-, hmul⟩ := aluMulKeepsTheLowByte
  obtain ⟨hproduct, -⟩ := hmul (ridx opa) (ridx opb) s
  refine ⟨_, exec_eq_executed (.mul opa opb) s, ?_, registerResultFrame_executed_alu s (by simp [Instr.op]) rfl⟩
  rw [executed_reg]
  exact hproduct

/-- Settles O40: the register holds what the ALU's ADD writes. -/
theorem addWritesTheSumModulo256 : Obligations.AddWritesTheSumModulo256 := by
  intro opa opb s
  obtain ⟨hsum, -⟩ := aluAddKeepsTheLowByte (ridx opa) (ridx opb) s
  refine ⟨_, exec_eq_executed (.add opa opb) s, ?_, registerResultFrame_executed_alu s (by simp [Instr.op]) rfl⟩
  rw [executed_reg]
  exact hsum

/-- Settles O41: the register holds what the ALU's OR writes. -/
theorem orWritesTheBitwiseOr : Obligations.OrWritesTheBitwiseOr := by
  intro opa opb s
  obtain ⟨hbits, -⟩ := aluOrIsBitwise (ridx opa) (ridx opb) s
  refine ⟨_, exec_eq_executed (.or opa opb) s, ?_, registerResultFrame_executed_alu s (by simp [Instr.op]) rfl⟩
  rw [executed_reg]
  exact hbits

end Sys2Proof.Proofs

end AluInstrObligations

/-! # Jumps: proofs of the obligations of 45_jumps.md

First each jump as its handler alone, what that handler leaves in `pc` and everywhere else, and the fault of a step at an
unregistered byte; then the obligations. -/

section JumpLaws

namespace Sys2Proof

/-- A byte is unregistered exactly if it is no opcode's (R58, R60). -/
theorem lookupOpcode_eq_none_iff {ir : Byte} : lookupOpcode ir = none ↔ ∀ o, ir ≠ opc o := by
  simp only [Option.eq_none_iff_forall_ne_some, Ne, lookupOpcode_eq_some]

namespace Machine

/-! ### The two conditional jumps -/

/-- The PC update after a JEQ does nothing (R125, R127). -/
theorem executed_jeq (opa : Byte) (s : State) : executed (.jeq opa) s = jumpIf s.flagE opa s :=
  if_pos (by decide : setsPc (opc .jeq) = true)

/-- The PC update after a JNE does nothing (R125, R128). -/
theorem executed_jne (opa : Byte) (s : State) : executed (.jne opa) s = jumpIf (!s.flagE) opa s :=
  if_pos (by decide : setsPc (opc .jne) = true)

theorem jumpIf_pc_of_taken {taken : Bool} (h : taken = true) (opa : Byte) (s : State) :
    (jumpIf taken opa s).pc = s.reg (ridx opa) := by
  rw [jumpIf_eq, State.setPc_pc, if_pos h]

theorem jumpIf_pc_of_not_taken {taken : Bool} (h : taken = false) (opa : Byte) (s : State) :
    (jumpIf taken opa s).pc = s.pc + 2 := by
  rw [jumpIf_eq, State.setPc_pc, h, if_neg Bool.false_ne_true]

/-! ### What CMP leaves for them -/

/-- After CMP bit 0 of `fl` says whether the two registers were equal (R75, R118). -/
theorem executed_cmp_fl_zero (opa opb : Byte) (s : State) :
    (executed (.cmp opa opb) s).fl.getLsbD 0 = true ↔ s.reg (ridx opa) = s.reg (ridx opb) := by
  rw [executed_cmp_fl]
  exact (compareFlags_bits ..).1

theorem executed_cmp_reg (opa opb : Byte) (s : State) (r : RegIdx) : (executed (.cmp opa opb) s).reg r = s.reg r :=
  executed_reg ..

end Machine

namespace Safety

open Sys2Proof.Machine

/-- A byte sum wraps where the advance is taken modulo 256 (R14). -/
theorem pcAdvanced_of_pc_eq_add {n : Nat} {s t : State} (h : t.pc = s.pc + BitVec.ofNat 8 n) : PcAdvanced n s t := by
  rw [PcAdvanced, h, BitVec.toNat_add, BitVec.toNat_ofNat, Nat.add_mod_mod]

/-! ### The frame and the target of a jump -/

theorem jumpFrame_setPc (s : State) (v : Byte) : JumpFrame s (s.setPc v) :=
  ⟨fun _ _ => rfl, rfl, ⟨rfl, rfl⟩, fun _ => rfl, rfl⟩

theorem jumpFrame_jumpIf (taken : Bool) (opa : Byte) (s : State) : JumpFrame s (jumpIf taken opa s) := by
  rw [jumpIf_eq]
  exact jumpFrame_setPc s _

/-- A jump writes `pc` alone: its register, or for the conditional jumps the fall-through by 2 (R125). -/
theorem jump_executed {i : Instr} {opa : Byte} (h : i = .jmp opa ∨ i = .jeq opa ∨ i = .jne opa) (s : State) :
    JumpFrame s (executed i s) ∧
      ((executed i s).pc = s.reg (ridx opa) ∨ i ≠ .jmp opa ∧ (executed i s).pc = s.pc + 2) := by
  rcases h with rfl | rfl | rfl
  case inl =>
    rw [executed_jmp]
    exact ⟨jumpFrame_setPc s _, .inl rfl⟩
  case inr.inl =>
    rw [executed_jeq]
    exact ⟨jumpFrame_jumpIf _ opa s, (jumpIf_pc _ opa s).imp_right (And.intro Instr.noConfusion)⟩
  case inr.inr =>
    rw [executed_jne]
    exact ⟨jumpFrame_jumpIf _ opa s, (jumpIf_pc _ opa s).imp_right (And.intro Instr.noConfusion)⟩

theorem setsPc_of_jump {i : Instr} {opa : Byte} (h : i = .jmp opa ∨ i = .jeq opa ∨ i = .jne opa) :
    setsPc (opc i.op) = true := by
  have hsets : ∀ o ∈ [Opcode.jmp, .jeq, .jne], setsPc (opc o) = true := by decide
  exact hsets i.op (by rcases h with rfl | rfl | rfl <;> simp [Instr.op])

end Safety

end Sys2Proof

end JumpLaws

section JumpObligations

namespace Sys2Proof.Proofs

open Sys2Proof.Machine Sys2Proof.Safety

/-- Settles O49: a jump writes `pc` alone, so what faults is the next step, on the byte at the target. -/
theorem jumpsWriteOnlyThePc : Obligations.JumpsWriteOnlyThePc := by
  intro opa i s hi
  obtain ⟨hframe, hpc⟩ := jump_executed hi s
  refine ⟨setsPc_of_jump hi, _, exec_eq_executed i s, hframe, hpc, fun hrun hbyte => ?_⟩
  exact ⟨_, step_of_unregistered hrun (lookupOpcode_eq_none_iff.mpr hbyte), raise_status .., raise_fault ..⟩

/-- Settles O46: JMP is one write of `pc`. -/
theorem jmpGoesToTheRegister : Obligations.JmpGoesToTheRegister := by
  intro opa s
  refine ⟨_, exec_eq_executed (.jmp opa) s, ?_⟩
  rw [executed_jmp]
  exact ⟨rfl, jumpFrame_setPc s _⟩

/-- Settles O47: JEQ is taken when bit 0 of `fl` is set. -/
theorem jeqJumpsWhenEqualIsSet : Obligations.JeqJumpsWhenEqualIsSet := by
  intro opa s
  refine ⟨_, exec_eq_executed (.jeq opa) s, ?_⟩
  rw [executed_jeq]
  exact ⟨fun hE => jumpIf_pc_of_taken hE opa s,
    fun hE => pcAdvanced_of_pc_eq_add (jumpIf_pc_of_not_taken hE opa s), jumpFrame_jumpIf _ opa s⟩

/-- Settles O48: JNE is taken when bit 0 of `fl` is clear. -/
theorem jneJumpsWhenEqualIsClear : Obligations.JneJumpsWhenEqualIsClear := by
  intro opa s
  refine ⟨_, exec_eq_executed (.jne opa) s, ?_⟩
  rw [executed_jne]
  exact ⟨fun hE => jumpIf_pc_of_taken (congrArg Bool.not hE) opa s,
    fun hE => pcAdvanced_of_pc_eq_add (jumpIf_pc_of_not_taken (congrArg Bool.not hE) opa s), jumpFrame_jumpIf _ opa s⟩

/-- Settles O52: CMP leaves the equality of its registers in the bit that JEQ and JNE read with opposite senses. -/
theorem cmpThenExactlyOneConditionalJumpIsTaken : Obligations.CmpThenExactlyOneConditionalJumpIsTaken := by
  intro opa opb opc' s
  have hE := executed_cmp_fl_zero opa opb s
  have hreg := executed_cmp_reg opa opb s (ridx opc')
  obtain ⟨u, hu, hjeq, hjeqFalls, -⟩ := jeqJumpsWhenEqualIsSet opc' (executed (.cmp opa opb) s)
  obtain ⟨v, hv, hjne, hjneFalls, -⟩ := jneJumpsWhenEqualIsClear opc' (executed (.cmp opa opb) s)
  refine ⟨_, u, v, exec_eq_executed _ s, hu, hv, fun heq => ?_, fun hne => ?_⟩
  · have hset := hE.mpr heq
    exact ⟨(hjeq hset).trans hreg, hjneFalls hset⟩
  · have hclear := Bool.eq_false_of_not_eq_true (mt hE.mp hne)
    exact ⟨hjeqFalls hclear, (hjne hclear).trans hreg⟩

end Sys2Proof.Proofs

end JumpObligations

/-! # Exceptions: proof of the obligation of 60_exceptions.md -/

section ExceptionLaws

namespace Sys2Proof.Safety

open Sys2Proof.Machine

/-- Entry into a fatal condition writes the status and the fault record alone: the frame of R142. -/
theorem raise_frame (c : Cause) (pc0 ir : Byte) (s : State) :
    SameRegsExcept [] s (raise c pc0 ir s) ∧ (raise c pc0 ir s).pc = s.pc ∧ (raise c pc0 ir s).fl = s.fl ∧
      SameMemory s (raise c pc0 ir s) ∧ (raise c pc0 ir s).out = s.out :=
  ⟨fun _ _ => raise_reg .., raise_pc .., raise_fl .., fun _ => raise_memRead .., raise_out ..⟩

end Sys2Proof.Safety

end ExceptionLaws

section ExceptionObligations

namespace Sys2Proof.Proofs

open Sys2Proof.Machine Sys2Proof.Safety

/-- Settles O13: the step at an unregistered byte is `raise`, whose frame is everything but status and fault record. -/
theorem unregisteredOpcodeFaultsPrecisely : Obligations.UnregisteredOpcodeFaultsPrecisely := by
  intro s hrun hbyte
  have hstep := step_of_unregistered hrun (lookupOpcode_eq_none_iff.mpr hbyte)
  exact ⟨_, hstep, raise_status .., raise_fault .., raise_frame ..⟩

end Sys2Proof.Proofs

end ExceptionObligations

/-! # Reset and hazards: proofs of the obligations of 70_reset_and_hazards.md

First what an instruction leaves in the status of a Running machine; then the obligations. -/

section ResetLaws

namespace Sys2Proof.Machine

/-- From Running, HLT halts and no other instruction does (R18, R100). -/
theorem executed_status_eq_halted_iff {i : Instr} {s : State} (hrun : s.status = .running) :
    (executed i s).status = .halted ↔ i.op = .hlt := by
  rw [executed_status, handled_status, hrun]
  by_cases hi : i.op = .hlt <;> simp [hi]

/-- No instruction faults a Running machine (R141). -/
theorem executed_status_ne_faulted {i : Instr} {s : State} (hrun : s.status = .running) :
    (executed i s).status ≠ .faulted := by
  rw [executed_status, handled_status, hrun]
  split <;> decide

end Sys2Proof.Machine

end ResetLaws

section ResetObligations

namespace Sys2Proof.Proofs

open Sys2Proof.Machine Sys2Proof.Safety

/-- Settles O15: an unregistered byte raises, which faults and does not halt; a registered one runs its instruction, which
never faults and halts exactly if it is HLT. -/
theorem runningStepsAreTotal : Obligations.RunningStepsAreTotal := by
  intro s hrun
  obtain ⟨t, hstep⟩ := exists_step_of_running hrun
  refine ⟨t, hstep, ?_⟩
  obtain ⟨-, ⟨o, hir, rfl⟩ | ⟨hir, rfl⟩⟩ := step_eq_next_iff.mp hstep
  · refine ⟨?_, iff_of_false (executed_status_ne_faulted hrun) fun hnone => hnone o hir⟩
    rw [executed_status_eq_halted_iff hrun, op_fetchedInstr, hir, opc_inj]
  · exact ⟨iff_of_false (by simp) (ne_opc_of_unregistered hir _),
      iff_of_true (raise_status ..) (ne_opc_of_unregistered hir)⟩

/-- Settles O25: loading keeps the canonical form of the memory at reset, and the clauses on flags and fault record see
nothing of memory while the machine is Running. -/
theorem launchMeetsTheInvariant : Obligations.LaunchMeetsTheInvariant := by
  intro image hlen
  obtain ⟨hwf, hfl, hrec, -⟩ := resetMeetsTheInvariant
  have hloaded : Memory.wf (loadFrom 0 image []) := loadFrom_wf image hwf ((Nat.zero_add _).trans_le hlen)
  exact ⟨_, launch_of_length_le hlen, hloaded, hfl, hrec, fun hhalt => nomatch hhalt⟩

end Sys2Proof.Proofs

end ResetObligations

/-! # Words written out from the encodings: proof of the obligation on the decoder's concrete words -/

section SpecWordObligations

namespace Sys2Proof.Proofs

/-- Settles O5: the first byte of each word is the value of the opcode map for the mnemonic named here (D1, log 1), so the
word decodes to that opcode with its operand bytes. -/
theorem specWordsDecode : Obligations.SpecWordsDecode :=
  ⟨decode_opc .hlt _ _, decode_opc .ldi _ _, decode_opc .prn _ _, decode_opc .mul _ _, decode_opc .push _ _,
    decode_opc .jeq _ _⟩

end Sys2Proof.Proofs

end SpecWordObligations
